-- ==== Sys2Proof/Word.lean ====
section
/-! DEFINITION. The word types of the block, the forms in which the host's operations reach it, and the
events from outside (spec/00_scope.md R6, R10, R12; spec/30_encoding.md R100, R102). -/

namespace Sys2Proof

/-- An effect tag or a fault code (00_scope.md R6 `FN_W`; 10_state.md R43). -/
abbrev Byte := BitVec 8

/-- A register of the window, a command word, a delay or a tick value (00_scope.md R6). -/
abbrev Word := BitVec 32

/-- The bit pattern of one PWM phase: bit i is LED i for i in 0..39 (00_scope.md R6 `FRAME_W`). -/
abbrev Frame := BitVec 64

/-- A bus access descriptor: bit 14 `W`, bits 13:12 `SZ`, bits 11:0 `OFF` (30_encoding.md R102). -/
abbrev Descriptor := BitVec 15

/-- The four values of the descriptor's `SZ` field (30_encoding.md R102). -/
inductive AccessSize where
  /-- `SZ` = 00, 1 byte -/
  | one
  /-- `SZ` = 01, 2 bytes -/
  | two
  /-- `SZ` = 10, 4 bytes: the only size that is admitted (20_memory.md R82) -/
  | four
  /-- `SZ` = 11, reserved: counts as a size that is not 4 -/
  | reserved
deriving DecidableEq, Repr

/-- The two encoded forms, and no others (30_encoding.md R100): the command word that is written to
`CMD`, and a bus access descriptor with the 32 data lines beside it (a READ does not look at them). -/
inductive HostWord where
  | command (w : Word)
  | bus (d : Descriptor) (data : Word)
deriving DecidableEq, Repr

/-- What can happen to the block from outside (00_scope.md R10, R11; 70_reset_and_hazards.md R260). -/
inductive Event where
  /-- a tick event of the external timer: one step of the tick sequencer (42_swap_arbiter.md R178) -/
  | tick
  /-- a host access: a descriptor and the 32 data lines beside it (30_encoding.md R102) -/
  | access (d : Descriptor) (data : Word)
  /-- the power is cycled, which is the one reset (60_exceptions.md R237; 70_reset_and_hazards.md R260) -/
  | powerOn
deriving DecidableEq, Repr

end Sys2Proof
end

