-- ==== Sys2Proof/Config.lean ====
section
/-! DEFINITION. The parameters of the block (spec/00_scope.md R5, R7 to R9; spec/10_state.md R39, R44).
What the spec fixes is a constant here. What it leaves open is a field of `Config`: the machine state
carries one (log entry 1), no step changes it, and the one that stands in the reset state is built from
constants without a body, so that nothing can be proved about its values beyond R8 and R9. -/

namespace Sys2Proof

/-- The size of the register window in bytes (00_scope.md R6 `OFF_W` = 12). -/
abbrev windowBytes : Nat := 4096

/-- `INIT_DELAY`, the start offsets of stars, topper and balls in ms (00_scope.md R5). -/
def initDelay : Vector Word 3 := #v[0#32, 1000#32, 1500#32]

/-- The open parameters the block reads (00_scope.md R7; 10_state.md R44). -/
structure Config where
  /-- `PULSE_LUT`: the pulse length, in phases, of each brightness (R8, R39) -/
  pulseLut : Vector (BitVec 7) 64
  /-- `INIT_FN`: the starting effect tag of each thread -/
  initFn : Vector Byte 3
  /-- `LAG_WINDOW`: the bound of the swap test (R9) -/
  lagWindow : Nat
deriving DecidableEq, Repr

namespace Config

/-- What the spec says of the open parameters and a model may assume: the table's entries are in
0..64 and non-decreasing (R8), and 128 <= `LAG_WINDOW` <= 2^31 (R9). -/
abbrev wf (c : Config) : Prop :=
  (∀ b : Fin 64, c.pulseLut[b].toNat ≤ 64) ∧
  (∀ a b : Fin 64, a ≤ b → c.pulseLut[a].toNat ≤ c.pulseLut[b].toNat) ∧
  128 ≤ c.lagWindow ∧ c.lagWindow ≤ 2 ^ 31

/-- Free: by how much the table rises at each brightness. Every table R8 allows is the one of some
choice of rises (log entry 2). -/
opaque lutRise : Nat → Nat

/-- Free: the starting effect tags (R7 `INIT_FN`). -/
opaque startTag : Nat → Byte

/-- Free: where `LAG_WINDOW` lies in its range (R9). -/
opaque lagChoice : Nat

/-- Free: what the outside world does between two ticks, once the listed events are taken
(00_scope.md R10 "in any interleaving"; log entry 3). -/
opaque burst : Nat → List Event

/-- The sum of the first n rises. -/
def riseSum : Nat → Nat
  | 0 => 0
  | n + 1 => riseSum n + lutRise n

/-- The configuration in the reset state: any that R7 to R9 allow, and none in particular. -/
def board : Config where
  pulseLut := Vector.ofFn fun b => BitVec.ofNat 7 (min 64 (riseSum (b.val + 1)))
  initFn := Vector.ofFn fun t => startTag t.val
  lagWindow := 128 + lagChoice % (2 ^ 31 - 127)

end Config

/-- The open parameters that only the host's programs read, "host-side only: the block does not read
it" (00_scope.md R7): no definition of the machine takes one. -/
structure HostParams where
  /-- `TICK_HZ` -/
  tickHz : Nat
  /-- `GROUP_MASK` -/
  groupMask : Vector (BitVec 40) 3
  /-- `MIN_DELAY_MS` -/
  minDelayMs : Nat
deriving DecidableEq, Repr

/-- The number of set bits of an LED mask (00_scope.md R13). -/
def popcount (m : BitVec 40) : Nat := ((List.range 40).filter fun i => m.getLsbD i).length

/-- The constraints of R7 on the host-side parameters: `TICK_HZ` > 0; the masks are disjoint, cover
all 40 LEDs and have popcounts 18, 1 and 21. -/
abbrev HostParams.wf (p : HostParams) : Prop :=
  0 < p.tickHz ∧
  p.groupMask[0] &&& p.groupMask[1] = 0 ∧ p.groupMask[0] &&& p.groupMask[2] = 0 ∧
  p.groupMask[1] &&& p.groupMask[2] = 0 ∧
  p.groupMask[0] ||| p.groupMask[1] ||| p.groupMask[2] = BitVec.allOnes 40 ∧
  popcount p.groupMask[0] = 18 ∧ popcount p.groupMask[1] = 1 ∧ popcount p.groupMask[2] = 21

end Sys2Proof
end

