-- ==== Sys2Proof/Syntax.lean ====
section
/-! DEFINITION. The instructions: one constructor per row of spec/opcode_table.json
(spec/30_encoding.md R105). -/

namespace Sys2Proof

/-- The seven commands the host writes to `CMD`, and its two bus operations (30_encoding.md R105).
A window offset is the key of a register, so it is a number; `WellFormed` bounds it. -/
inductive Instr where
  /-- NOP (43_bus_and_nop.md R200) -/
  | nop
  /-- RENDER (41_renderer.md R152) -/
  | render
  /-- RENDER_LIST (41_renderer.md R153) -/
  | renderList
  /-- ARM_SWAP (42_swap_arbiter.md R171) -/
  | armSwap
  /-- SCHED_INIT (40_scheduler.md R124) -/
  | schedInit
  /-- SCHED_STEP (40_scheduler.md R125) -/
  | schedStep
  /-- SCHED_RET fn (40_scheduler.md R126) -/
  | schedRet (fn : Byte)
  /-- READ of an access size at a byte offset (43_bus_and_nop.md R202) -/
  | read (size : AccessSize) (off : Nat)
  /-- WRITE of a value, of an access size at a byte offset (43_bus_and_nop.md R203) -/
  | write (size : AccessSize) (off : Nat) (data : Word)
deriving DecidableEq, Repr

end Sys2Proof
end

