-- ==== Sys2Proof/WellFormed.lean ====
section
/-! DEFINITION. Which terms of `Instr` an encoding can hold: the byte offset of an access fits its
12-bit field (spec/20_memory.md R81; spec/30_encoding.md R102). -/

namespace Sys2Proof.Instr

/-- An access names an offset inside the window. Every other operand is bounded by its type. -/
def wf : Instr → Bool
  | .nop => true
  | .render => true
  | .renderList => true
  | .armSwap => true
  | .schedInit => true
  | .schedStep => true
  | .schedRet _ => true
  | .read _ off => decide (off < windowBytes)
  | .write _ off _ => decide (off < windowBytes)

/-- The well-formed instructions. -/
abbrev WellFormed (i : Instr) : Prop := i.wf = true

/-- The seven rows of formats CMD-Z and CMD-F, which reach the block as words written to `CMD`
(30_encoding.md R101, R105). -/
def isCommand : Instr → Bool
  | .nop => true
  | .render => true
  | .renderList => true
  | .armSwap => true
  | .schedInit => true
  | .schedStep => true
  | .schedRet _ => true
  | .read _ _ => false
  | .write _ _ _ => false

end Sys2Proof.Instr
end

