-- ==== Sys2Proof/Decode.lean ====
section
/-! DEFINITION. The decoder of command words and bus descriptors, total, and after it the encoder,
both from the tables of spec/30_encoding.md R101, R102 and R105. -/

namespace Sys2Proof

/-- The command a 32-bit word stands for: the row of R105 with `w AND mask = match`, and none where no
row matches (30_encoding.md R104, R106). -/
def decodeCommand (w : Word) : Option Instr :=
  if w &&& 0xFFFFFFFF#32 = 0x00000000#32 then some .nop
  else if w &&& 0xFFFFFFFF#32 = 0x01000000#32 then some .render
  else if w &&& 0xFFFFFFFF#32 = 0x02000000#32 then some .renderList
  else if w &&& 0xFFFFFFFF#32 = 0x10000000#32 then some .armSwap
  else if w &&& 0xFFFFFFFF#32 = 0x20000000#32 then some .schedInit
  else if w &&& 0xFFFFFFFF#32 = 0x21000000#32 then some .schedStep
  else if w &&& 0xFFFFFF00#32 = 0x22000000#32 then some (.schedRet (w.extractLsb' 0 8))
  else none

/-- The `SZ` field (30_encoding.md R102). -/
def decodeSize (sz : BitVec 2) : AccessSize :=
  if sz = 0b00#2 then .one
  else if sz = 0b01#2 then .two
  else if sz = 0b10#2 then .four
  else .reserved

/-- The access a descriptor stands for (30_encoding.md R102): every one of the 2^15 descriptors is a
READ or a WRITE, and the sizes and offsets that are not admitted are refused when it is performed. -/
def decodeBus (d : Descriptor) (data : Word) : Instr :=
  if d.getLsbD 14 then .write (decodeSize (d.extractLsb' 12 2)) (d.extractLsb' 0 12).toNat data
  else .read (decodeSize (d.extractLsb' 12 2)) (d.extractLsb' 0 12).toNat

/-- The decoder of both encoded forms. -/
def decode : HostWord → Option Instr
  | .command w => decodeCommand w
  | .bus d data => some (decodeBus d data)

/-- The instruction of a word numbered as spec/opcode_table.json numbers it: a row of format BUS has
15 bits, in two bytes, of which bit 15 is no part of the descriptor and is 0, and the data of a WRITE
(above those bits) is 0; a row of formats CMD-Z and CMD-F has 32 bits. -/
def decodeTableWord (nbits w : Nat) : Option Instr :=
  if nbits ≤ 16 then
    if w < 2 ^ 15 then decode (.bus (BitVec.ofNat 15 w) 0#32) else none
  else if w < 2 ^ 32 then decode (.command (BitVec.ofNat 32 w)) else none

/-- The `SZ` code of an access size (30_encoding.md R102). -/
def encodeSize : AccessSize → BitVec 2
  | .one => 0b00#2
  | .two => 0b01#2
  | .four => 0b10#2
  | .reserved => 0b11#2

/-- The descriptor of an access: `W`, `SZ`, `OFF` from bit 14 down (30_encoding.md R102). -/
def encodeBus (isWrite : Bool) (size : AccessSize) (off : Nat) : Descriptor :=
  BitVec.ofBool isWrite ++ encodeSize size ++ BitVec.ofNat 12 off

/-- The words of an instruction (30_encoding.md R101, R102). -/
def encode : Instr → HostWord
  | .nop => .command 0x00000000#32
  | .render => .command 0x01000000#32
  | .renderList => .command 0x02000000#32
  | .armSwap => .command 0x10000000#32
  | .schedInit => .command 0x20000000#32
  | .schedStep => .command 0x21000000#32
  | .schedRet fn => .command (0x22#8 ++ 0#16 ++ fn)
  | .read size off => .bus (encodeBus false size off) 0#32
  | .write size off data => .bus (encodeBus true size off) data

/-- The command word of a command, which a fault of that command records (60_exceptions.md R223);
for an access, the word on its data lines. -/
def commandWord (i : Instr) : Word :=
  match encode i with
  | .command w => w
  | .bus _ data => data

end Sys2Proof
end

