-- ==== Sys2Proof/Machine/State.lean ====
section
/-! DEFINITION. The state of the block, as plain data: every element of spec/10_state.md R30 to R43
and the configuration of R44, with what the model adds of its own (the events still to come, the value
the last READ returned, the count of strobe pulses); and what names its parts. -/

namespace Sys2Proof.Machine

/-- Who stops the machine: nobody. The block keeps running after everything it calls a fault
(60_exceptions.md R227: the record is state, `State.fault`), and a tick has no failing case (R224).
So this type has no constructor, and no step can answer with it. Safe: nothing is cut off. -/
inductive Fault
deriving DecidableEq, Repr

/-- Why the model gives no next state. -/
inductive Refusal where
  /-- Raised by an arm of `exec` whose instruction has no meaning yet. There is none. Safe: the model
  stops where the block would go on. -/
  | notModelled (mnemonic : String)
deriving DecidableEq, Repr

/-- The events after the listed ones, in rounds without end. Every round closes with a tick, so the timer
ticks infinitely often (70_reset_and_hazards.md R280; 92_eei_decisions.md D43; log entry 3). -/
inductive Later where
  /-- what comes before the tick of each round is free: any finite list of events -/
  | free
  /-- the same events come before the tick of every round: a host that does them over and over -/
  | repeated (round : List Event)
deriving DecidableEq, Repr

/-- The causes of a fault (60_exceptions.md R221). -/
inductive FaultCode where
  | illegalCmd
  | badAccess
  | roWrite
  | valueRange
  | schedProtocol
  | renderWhilePending
  | armWhilePending
deriving DecidableEq, Repr

/-- The registers of the window (10_state.md R45). -/
inductive Reg where
  | id
  | ctrl
  | status
  | cmd
  | data
  | result
  | call
  | tick
  | target
  | subsetLo
  | subsetHi
  | faultCode
  | faultInfo
  | latchLo
  | latchHi
  | threadRem (t : Fin 3)
  | threadFn (t : Fin 3)
  | br (i : Fin 40)
  | lut (b : Fin 64)
  /-- the low (`hi` = false) or high word of frame p of bank k (k = true: bank 1) -/
  | bank (k : Bool) (p : Fin 64) (hi : Bool)
deriving DecidableEq, Repr

/-- One entry of the thread table (10_state.md R40). -/
structure Thread where
  /-- `FN[t]` -/
  fn : Byte
  /-- `FIRST[t]` -/
  first : Bool
  /-- `REM[t]` -/
  rem : Word
deriving DecidableEq, Repr

/-- One frame bank: 64 frames, one a phase (10_state.md R33). -/
abbrev Bank := Vector Frame 64

structure State where
  /-- `BR[0..39]` (R32) -/
  br : Vector (BitVec 6) 40
  /-- `BANK[0]` (R33) -/
  bank0 : Bank
  /-- `BANK[1]` (R33) -/
  bank1 : Bank
  /-- `ACTIVE` (R34): true names bank 1 -/
  active : Bool
  /-- `PENDING` (R35) -/
  pending : Bool
  /-- `TARGET` (R35) -/
  target : Word
  /-- `TICK` (R36) -/
  tick : Word
  /-- `SHIFT` (R37): the frame output -/
  shift : Frame
  /-- `LATCH` (R37): the LED outputs -/
  latch : Frame
  /-- `SWAPPED` (R38) -/
  swapped : Bool
  /-- `FN`, `FIRST`, `REM` of the threads 0 = stars, 1 = topper, 2 = balls (R40) -/
  threads : Vector Thread 3
  /-- `SINIT` (R41) -/
  sinit : Bool
  /-- `BUSY` (R41) -/
  busy : Bool
  /-- `DUE` (R41): bit t is thread t -/
  due : BitVec 3
  /-- `CUR` (R41): of its 2 bits only the three thread indices are ever written -/
  cur : Fin 3
  /-- `LAST` (R41) -/
  last : Word
  /-- `IE_SWAP` (R42) -/
  ieSwap : Bool
  /-- `IE_FAULT` (R42) -/
  ieFault : Bool
  /-- `FAULT` (R43) -/
  fault : Bool
  /-- `FAULT_CODE` (R43) -/
  faultCode : Byte
  /-- `FAULT_INFO` (R43) -/
  faultInfo : Word
  /-- `DATA` (R30, R50) -/
  data : Word
  /-- `SUBSET` (R30, R55, R56) -/
  subset : BitVec 40
  /-- the open parameters, fixed for the life of a run (R39, R44; log entry 1) -/
  cfg : Config
  /-- the model's own: the next events, in the one total order of 20_memory.md R88 (log entry 3) -/
  inputs : List Event
  /-- the model's own: the events after those of `inputs`, without end (log entry 3) -/
  later : Later
  /-- the model's own: how many rounds of `later` have been taken (log entry 3) -/
  rounds : Nat
  /-- the model's own: what the last READ returned to the host (43_bus_and_nop.md R202; log entry 4) -/
  rdata : Word
  /-- the model's own: how often the load-enable strobe has been pulsed (42_swap_arbiter.md R181; log
  entry 5) -/
  strobes : Nat
deriving DecidableEq, Repr

namespace State

/-- `BANK[k]`. -/
def bank (s : State) (k : Bool) : Bank := if k then s.bank1 else s.bank0

/-- The state right after power-on: every element of R32 to R43, R50, R55 and R56 at 0
(70_reset_and_hazards.md R260). The model's own `rdata` and `strobes` are 0 (log entries 4 and 5), no event
is listed, and what the outside world will do is free (log entry 3). -/
def reset : State where
  br := Vector.replicate 40 0#6
  bank0 := Vector.replicate 64 0#64
  bank1 := Vector.replicate 64 0#64
  active := false
  pending := false
  target := 0#32
  tick := 0#32
  shift := 0#64
  latch := 0#64
  swapped := false
  threads := Vector.replicate 3 ⟨0#8, false, 0#32⟩
  sinit := false
  busy := false
  due := 0#3
  cur := 0
  last := 0#32
  ieSwap := false
  ieFault := false
  fault := false
  faultCode := 0#8
  faultInfo := 0#32
  data := 0#32
  subset := 0#40
  cfg := Config.board
  inputs := []
  later := .free
  rounds := 0
  rdata := 0#32
  strobes := 0

end State

end Sys2Proof.Machine
end

