-- ==== Sys2Proof/Machine/Ops.lean ====
section
/-! DEFINITION. The operations the meanings share: the arithmetic of spec/00_scope.md R13, recording a
fault (spec/60_exceptions.md R222), the acknowledge beside it, the writes of a bank and of a thread,
and the order in which events are taken (spec/20_memory.md R88). -/

namespace Sys2Proof.Machine

/-- `satsub(a, b) = a - b if a >= b else 0` (00_scope.md R13). -/
def satsub (a b : Word) : Word := if b ≤ a then a - b else 0#32

/-- The lesser of two words (00_scope.md R13 `min`). -/
def wordMin (a b : Word) : Word := if a ≤ b then a else b

/-- The `FAULT_CODE` of a cause (60_exceptions.md R221). -/
def faultByte : FaultCode → Byte
  | .illegalCmd => 0x01#8
  | .badAccess => 0x02#8
  | .roWrite => 0x03#8
  | .valueRange => 0x04#8
  | .schedProtocol => 0x05#8
  | .renderWhilePending => 0x06#8
  | .armWhilePending => 0x07#8

/-- `raise Fault(code, info)` (60_exceptions.md R222): the first fault since reset is recorded, a later
one leaves the record as it stands. -/
def raiseFault (code : FaultCode) (info : Word) (s : State) : State :=
  if s.fault then s
  else { s with fault := true, faultCode := faultByte code, faultInfo := info }

/-- There is no return from a fault (60_exceptions.md R228): "The only acknowledgement in the block is
the W1C clear of `SWAPPED`" (10_state.md R48). -/
def acknowledge (v : Word) (s : State) : State :=
  if v.getLsbD 2 then { s with swapped := false } else s

/-- The access size as `FAULT_INFO` records it: in bytes, and 0 for `SZ` = 11 (60_exceptions.md R223). -/
def sizeBytes : AccessSize → Nat
  | .one => 1
  | .two => 2
  | .four => 4
  | .reserved => 0

/-- The bus layout of `FAULT_INFO` (60_exceptions.md R223; 20_memory.md R82). -/
def busInfo (isWrite : Bool) (size : AccessSize) (off : Nat) : Word :=
  0#15 ++ BitVec.ofBool isWrite ++ BitVec.ofNat 4 (sizeBytes size) ++ BitVec.ofNat 12 off

/-- Bank k becomes b. -/
def setBank (k : Bool) (b : Bank) (s : State) : State :=
  if k then { s with bank1 := b } else { s with bank0 := b }

/-- The entry of thread t becomes th. -/
def setThread (t : Fin 3) (th : Thread) (s : State) : State :=
  { s with threads := s.threads.set t.val th t.isLt }

/-- `PULSE_LUT[b]` (10_state.md R39). -/
def pulseLength (c : Config) (b : BitVec 6) : BitVec 7 := c.pulseLut[b.toNat]'b.isLt

/-- The events of the next round that come before its tick (log entry 3). -/
def hostRound (s : State) : List Event :=
  match s.later with
  | .free => Config.burst s.rounds
  | .repeated round => round

/-- The next event of the one total order (20_memory.md R88), and the state without it: the first that
is listed; where none is, the first of the next round, whose others are then listed, its tick last. -/
def nextEvent (s : State) : Event × State :=
  match s.inputs with
  | e :: rest => (e, { s with inputs := rest })
  | [] =>
    match hostRound s with
    | [] => (.tick, { s with rounds := s.rounds + 1 })
    | e :: rest => (e, { s with inputs := rest ++ [.tick], rounds := s.rounds + 1 })

/-- Power-on (70_reset_and_hazards.md R260): every state element takes its reset value, the
configuration "is not state and is unchanged", and the events still to come are the outside world's. -/
def powerOn (s : State) : State :=
  { State.reset with cfg := s.cfg, inputs := s.inputs, later := s.later, rounds := s.rounds }

end Sys2Proof.Machine
end

