-- ==== Sys2Proof/Machine/Flags.lean ====
section
/-! DEFINITION. The words that are made of flags (spec/10_state.md R47, R48, R52, R61) and the
interrupt line (spec/60_exceptions.md R230). -/

namespace Sys2Proof.Machine

/-- What a read of `CTRL` returns (10_state.md R47). -/
def ctrlWord (s : State) : Word := 0#30 ++ BitVec.ofBool s.ieFault ++ BitVec.ofBool s.ieSwap

/-- What a read of `STATUS` returns (10_state.md R48). -/
def statusWord (s : State) : Word :=
  0#26 ++ BitVec.ofBool s.fault ++ BitVec.ofBool s.busy ++ BitVec.ofBool s.sinit
    ++ BitVec.ofBool s.swapped ++ BitVec.ofBool s.active ++ BitVec.ofBool s.pending

/-- What a read of `CALL` returns (10_state.md R52). -/
def callWord (s : State) : Word :=
  if s.busy then
    1#1 ++ 0#13 ++ BitVec.ofNat 2 s.cur.val ++ 0#7
      ++ BitVec.ofBool s.threads[s.cur].first ++ s.threads[s.cur].fn
  else 0#32

/-- What a read of `THREAD_FN[t]` returns (10_state.md R61). -/
def threadFnWord (th : Thread) : Word := 0#23 ++ BitVec.ofBool th.first ++ th.fn

/-- The interrupt output (60_exceptions.md R230): level-sensitive, so a function of the state. -/
def irq (s : State) : Bool := (s.swapped && s.ieSwap) || (s.fault && s.ieFault)

end Sys2Proof.Machine
end

