-- ==== Sys2Proof/Machine/Operands.lean ====
section
/-! DEFINITION. The register window as the operand of an access: which offset names which register
(spec/10_state.md R45), which accesses are admitted (spec/20_memory.md R82), and what each register
reads as (spec/10_state.md R46 to R70). -/

namespace Sys2Proof.Machine

/-- The registers below offset 0x03C, by word index (10_state.md R45). -/
def controlReg : Nat → Option Reg
  | 0 => some .id
  | 1 => some .ctrl
  | 2 => some .status
  | 3 => some .cmd
  | 4 => some .data
  | 5 => some .result
  | 6 => some .call
  | 7 => some .tick
  | 8 => some .target
  | 9 => some .subsetLo
  | 10 => some .subsetHi
  | 11 => some .faultCode
  | 12 => some .faultInfo
  | 13 => some .latchLo
  | 14 => some .latchHi
  | _ => none

/-- The register at a byte offset, and none where the offset is no multiple of 4 or is unmapped
(10_state.md R45). -/
def regOf (off : Nat) : Option Reg :=
  if off % 4 ≠ 0 then none
  else if off < 0x03C then controlReg (off / 4)
  else if off < 0x040 then none
  else if h : off < 0x058 then
    if off % 8 = 0 then some (.threadRem ⟨(off - 0x040) / 8, by omega⟩)
    else some (.threadFn ⟨(off - 0x040) / 8, by omega⟩)
  else if off < 0x100 then none
  else if h : off < 0x1A0 then some (.br ⟨(off - 0x100) / 4, by omega⟩)
  else if off < 0x200 then none
  else if h : off < 0x300 then some (.lut ⟨(off - 0x200) / 4, by omega⟩)
  else if off < 0x800 then none
  else if off < 0xC00 then
    some (.bank (decide (0xA00 ≤ off)) ⟨(off % 0x200) / 8, by omega⟩ (decide (off % 8 = 4)))
  else none

/-- The byte offset of a register (10_state.md R45). -/
def regOffset : Reg → Nat
  | .id => 0x000
  | .ctrl => 0x004
  | .status => 0x008
  | .cmd => 0x00C
  | .data => 0x010
  | .result => 0x014
  | .call => 0x018
  | .tick => 0x01C
  | .target => 0x020
  | .subsetLo => 0x024
  | .subsetHi => 0x028
  | .faultCode => 0x02C
  | .faultInfo => 0x030
  | .latchLo => 0x034
  | .latchHi => 0x038
  | .threadRem t => 0x040 + 8 * t.val
  | .threadFn t => 0x044 + 8 * t.val
  | .br i => 0x100 + 4 * i.val
  | .lut b => 0x200 + 4 * b.val
  | .bank k p hi => 0x800 + 0x200 * k.toNat + 8 * p.val + 4 * hi.toNat

/-- The register an access is admitted to: `n = 4`, `off mod 4 = 0` and a mapped offset, and none
otherwise (20_memory.md R82). -/
def admitted (size : AccessSize) (off : Nat) : Option Reg :=
  if size = .four then regOf off else none

/-- The read-only registers, a write to which faults (10_state.md R71). -/
def readOnly : Reg → Bool
  | .id | .result | .call | .tick | .target | .faultCode | .faultInfo | .latchLo | .latchHi => true
  | .threadRem _ | .threadFn _ | .lut _ | .bank _ _ _ => true
  | .ctrl | .status | .cmd | .data | .subsetLo | .subsetHi | .br _ => false

/-- `readval`: the word a register reads as. No read has a side effect (20_memory.md R86). -/
def readReg (s : State) : Reg → Word
  -- {revision 1, PHASES 64, N_THREADS 3, LED_COUNT 40} (10_state.md R46)
  | .id => 0x01#8 ++ 0x40#8 ++ 0x03#8 ++ 0x28#8
  | .ctrl => ctrlWord s
  | .status => statusWord s
  | .cmd => 0#32
  | .data => s.data
  | .result => s.last
  | .call => callWord s
  | .tick => s.tick
  | .target => s.target
  | .subsetLo => s.subset.extractLsb' 0 32
  | .subsetHi => (s.subset.extractLsb' 32 8).setWidth 32
  | .faultCode => s.faultCode.setWidth 32
  | .faultInfo => s.faultInfo
  | .latchLo => s.latch.extractLsb' 0 32
  | .latchHi => (s.latch.extractLsb' 32 8).setWidth 32
  | .threadRem t => s.threads[t].rem
  | .threadFn t => threadFnWord s.threads[t]
  | .br i => s.br[i].setWidth 32
  | .lut b => s.cfg.pulseLut[b].setWidth 32
  | .bank k p false => (s.bank k)[p].extractLsb' 0 32
  | .bank k p true => (s.bank k)[p].extractLsb' 32 32

end Sys2Proof.Machine
end

