-- ==== Sys2Proof/Machine/Renderer.lean ====
section
/-! DEFINITION. The renderer unit: RENDER, RENDER_LIST (spec/41_renderer.md). -/

namespace Sys2Proof.Machine

/-- `on(i, p)` (41_renderer.md R151): LED i is on in phase p exactly when `PULSE_LUT[BR[i]] > p`. -/
def ledOn (s : State) (i : Fin 40) (p : Fin 64) : Bool :=
  decide (p.val < (pulseLength s.cfg s.br[i]).toNat)

/-- Frame p of a full rasterization: every LED's bit, and 0 in bits 40..63 (41_renderer.md R152). -/
def renderFrame (s : State) (p : Fin 64) : Frame :=
  BitVec.ofFnLE fun i : Fin 64 => if h : i.val < 40 then ledOn s ⟨i.val, h⟩ p else false

/-- Frame p, which held `old`, of a rasterization of the LEDs of `SUBSET`: every other bit is
unchanged (41_renderer.md R153). -/
def renderListFrame (s : State) (p : Fin 64) (old : Frame) : Frame :=
  BitVec.ofFnLE fun i : Fin 64 =>
    if h : i.val < 40 then
      if s.subset.getLsbD i.val then ledOn s ⟨i.val, h⟩ p else old.getLsbD i.val
    else old.getLsbD i.val

/-- RENDER (41_renderer.md R152), into the inactive bank (R150). -/
def execRender (s : State) : Host.Outcome State Fault Refusal :=
  if s.pending then .next (raiseFault .renderWhilePending (commandWord .render) s)
  else .next (setBank (!s.active) (Vector.ofFn fun p => renderFrame s p) s)

/-- RENDER_LIST (41_renderer.md R153), into the inactive bank (R150). -/
def execRenderList (s : State) : Host.Outcome State Fault Refusal :=
  if s.pending then .next (raiseFault .renderWhilePending (commandWord .renderList) s)
  else
    .next (setBank (!s.active)
      (Vector.ofFn fun p => renderListFrame s p (s.bank (!s.active))[p]) s)

end Sys2Proof.Machine
end

