-- ==== Sys2Proof/Machine/Scheduler.lean ====
section
/-! DEFINITION. The scheduler unit: SCHED_INIT, SCHED_STEP, SCHED_RET (spec/40_scheduler.md). -/

namespace Sys2Proof.Machine

/-- `min(S.REM[0], S.REM[1], S.REM[2])` (40_scheduler.md R123). -/
def minRem (s : State) : Word :=
  wordMin s.threads[0].rem (wordMin s.threads[1].rem s.threads[2].rem)

/-- The set of threads whose remaining delay is zero (40_scheduler.md R123). -/
def zeroRem (s : State) : BitVec 3 :=
  BitVec.ofBool (s.threads[2].rem == 0#32) ++ BitVec.ofBool (s.threads[1].rem == 0#32)
    ++ BitVec.ofBool (s.threads[0].rem == 0#32)

/-- `min(S.DUE)`, the least thread index of a non-empty set (00_scope.md R13). -/
def lowest (due : BitVec 3) : Fin 3 :=
  if due.getLsbD 0 then 0 else if due.getLsbD 1 then 1 else 2

/-- `DUE \ {t}`. -/
def without (due : BitVec 3) (t : Fin 3) : BitVec 3 := due &&& ~~~(1#3 <<< t.val)

/-- `begin_pass()` (40_scheduler.md R123): the step completes if no delay is zero, and otherwise a pass
opens over the threads whose delay is. -/
def beginPass (s : State) : State :=
  if minRem s ≠ 0#32 then
    { s with last := minRem s, due := 0#3, cur := 0, busy := false }
  else
    { s with due := zeroRem s, cur := lowest (zeroRem s), busy := true }

/-- SCHED_INIT (40_scheduler.md R124). -/
def execSchedInit (s : State) : Host.Outcome State Fault Refusal :=
  if s.busy then .next (raiseFault .schedProtocol (commandWord .schedInit) s)
  else
    .next { s with
      threads := Vector.ofFn fun t => ⟨s.cfg.initFn[t], true, initDelay[t]⟩
      last := 0#32
      due := 0#3
      cur := 0
      sinit := true }

/-- The delay elapsed since the previous step, `LAST`, is subtracted from every thread's
(40_scheduler.md R125). -/
def subtractElapsed (s : State) : State :=
  { s with threads := Vector.ofFn fun t => { s.threads[t] with rem := satsub s.threads[t].rem s.last } }

/-- SCHED_STEP (40_scheduler.md R125). -/
def execSchedStep (s : State) : Host.Outcome State Fault Refusal :=
  if !s.sinit || s.busy then .next (raiseFault .schedProtocol (commandWord .schedStep) s)
  else .next (beginPass (subtractElapsed s))

/-- The entry of the current thread after its call returned tag f, with the delay in `DATA`; the first
flag compares with the tag before the write (40_scheduler.md R126, R128). -/
def returnedThread (f : Byte) (s : State) : Thread :=
  { fn := f, first := f != s.threads[s.cur].fn, rem := s.data }

/-- The thread table and `DUE` after the outstanding call returned tag f (40_scheduler.md R126). -/
def recordReturn (f : Byte) (s : State) : State :=
  { setThread s.cur (returnedThread f s) s with due := without s.due s.cur }

/-- The next due thread of this pass is called, or the pass has ended (40_scheduler.md R126). -/
def continuePass (s : State) : State :=
  if s.due ≠ 0#3 then { s with cur := lowest s.due } else beginPass s

/-- SCHED_RET f (40_scheduler.md R126). -/
def execSchedRet (f : Byte) (s : State) : Host.Outcome State Fault Refusal :=
  if s.busy then .next (continuePass (recordReturn f s))
  else .next (raiseFault .schedProtocol (commandWord (.schedRet f)) s)

end Sys2Proof.Machine
end

