-- ==== Sys2Proof/Machine/Swap.lean ====
section
/-! DEFINITION. The swap arbiter and the tick sequencer: ARM_SWAP and the tick step
(spec/42_swap_arbiter.md). -/

namespace Sys2Proof.Machine

/-- ARM_SWAP (42_swap_arbiter.md R171). -/
def execArmSwap (s : State) : Host.Outcome State Fault Refusal :=
  if s.pending then .next (raiseFault .armWhilePending (commandWord .armSwap) s)
  else .next { s with target := s.data, pending := true }

/-- The phase, `T[6:1]` (42_swap_arbiter.md R178). -/
def phase (s : State) : Fin 64 := (s.tick.extractLsb' 1 6).toFin

/-- The wrap-around lag `(T - TARGET) mod 2^32` (42_swap_arbiter.md R179). -/
def lag (s : State) : Nat := (s.tick - s.target).toNat

/-- The swap test of a shift tick (42_swap_arbiter.md R178, R179). -/
def swapNow (s : State) : Bool :=
  phase s == 0 && s.pending && decide (lag s < s.cfg.lagWindow)

/-- The swap (42_swap_arbiter.md R179). -/
def swapBanks (s : State) : State :=
  { s with active := !s.active, pending := false, swapped := true }

/-- A shift tick (42_swap_arbiter.md R178, R180): first the swap, if it is due, and then frame p of the
bank that is active then goes into `SHIFT`. -/
def shiftTick (s : State) : State :=
  let s' := if swapNow s then swapBanks s else s
  { s' with shift := (s'.bank s'.active)[phase s] }

/-- A latch tick (42_swap_arbiter.md R181): `SHIFT` becomes the LED outputs and the strobe is pulsed. -/
def latchTick (s : State) : State := { s with latch := s.shift, strobes := s.strobes + 1 }

/-- `Tick()`, one step of the tick sequencer (42_swap_arbiter.md R178). -/
def tickStep (s : State) : State :=
  let s' := if s.tick.getLsbD 0 then latchTick s else shiftTick s
  { s' with tick := s.tick + 1#32 }

/-- n ticks one after another, with no host access between them. -/
def ticks : Nat → State → State
  | 0, s => s
  | n + 1, s => ticks n (tickStep s)

end Sys2Proof.Machine
end

