-- ==== Sys2Proof/Machine/Bus.lean ====
section
/-! DEFINITION. NOP and the host's two operations, READ and WRITE (spec/43_bus_and_nop.md), with the
execution of a command word that is written to `CMD` (spec/30_encoding.md R104). -/

namespace Sys2Proof.Machine

/-- NOP (43_bus_and_nop.md R200). -/
def execNop (s : State) : Host.Outcome State Fault Refusal := .next s

/-- `Exec(cmd)` (30_encoding.md R104): the row's command is executed, and a word that matches no row
faults. The decoder answers with a command or with nothing, so the last two arms are never reached. -/
def execCommandWord (w : Word) (s : State) : Host.Outcome State Fault Refusal :=
  match decodeCommand w with
  | some .nop => execNop s
  | some .render => execRender s
  | some .renderList => execRenderList s
  | some .armSwap => execArmSwap s
  | some .schedInit => execSchedInit s
  | some .schedStep => execSchedStep s
  | some (.schedRet f) => execSchedRet f s
  | none => .next (raiseFault .illegalCmd w s)
  | some (.read _ _) => .next (raiseFault .illegalCmd w s)
  | some (.write _ _ _) => .next (raiseFault .illegalCmd w s)

/-- READ `(off, n)` (43_bus_and_nop.md R202): the register's word, or a fault and 0. -/
def execRead (size : AccessSize) (off : Nat) (s : State) : Host.Outcome State Fault Refusal :=
  match admitted size off with
  | some r => .next { s with rdata := readReg s r }
  | none => .next { raiseFault .badAccess (busInfo false size off) s with rdata := 0#32 }

/-- A write of v at a register that keeps it, where v lies outside the register's legal range
(60_exceptions.md R221 `VALUE_RANGE`), or a write at a read-only one (`RO_WRITE`). -/
def refuseWrite (code : FaultCode) (r : Reg) (s : State) : Host.Outcome State Fault Refusal :=
  .next (raiseFault code (busInfo true .four (regOffset r)) s)

/-- The effect of an admitted write, register by register (43_bus_and_nop.md R203; 10_state.md R47,
R48, R50, R55, R56, R65, R71). -/
def writeReg (v : Word) (r : Reg) (s : State) : Host.Outcome State Fault Refusal :=
  if readOnly r then refuseWrite .roWrite r s
  else
    match r with
    | .ctrl =>
      if v.extractLsb' 2 30 ≠ 0#30 then refuseWrite .valueRange r s
      else .next { s with ieSwap := v.getLsbD 0, ieFault := v.getLsbD 1 }
    | .status => .next (acknowledge v s)
    | .cmd => execCommandWord v s
    | .data => .next { s with data := v }
    | .subsetLo => .next { s with subset := s.subset.extractLsb' 32 8 ++ v }
    | .subsetHi =>
      if v.extractLsb' 8 24 ≠ 0#24 then refuseWrite .valueRange r s
      else .next { s with subset := v.extractLsb' 0 8 ++ s.subset.extractLsb' 0 32 }
    | .br i =>
      if v.extractLsb' 6 26 ≠ 0#26 then refuseWrite .valueRange r s
      else .next { s with br := s.br.set i.val (v.extractLsb' 0 6) i.isLt }
    | _ => refuseWrite .roWrite r s

/-- WRITE `(off, n, v)` (43_bus_and_nop.md R203). -/
def execWrite (size : AccessSize) (off : Nat) (data : Word) (s : State) :
    Host.Outcome State Fault Refusal :=
  match admitted size off with
  | some r => writeReg data r s
  | none => .next (raiseFault .badAccess (busInfo true size off) s)

end Sys2Proof.Machine
end

