-- ==== Sys2Proof/Machine/Dispatch.lean ====
section
/-! DEFINITION. What each instruction does: one arm per constructor of Instr. -/

namespace Sys2Proof.Machine

def exec (i : Instr) (s : State) : Host.Outcome State Fault Refusal :=
  match i with
  | .nop => Sys2Proof.Machine.execNop s
  | .render => Sys2Proof.Machine.execRender s
  | .renderList => Sys2Proof.Machine.execRenderList s
  | .armSwap => Sys2Proof.Machine.execArmSwap s
  | .schedInit => Sys2Proof.Machine.execSchedInit s
  | .schedStep => Sys2Proof.Machine.execSchedStep s
  | .schedRet fn => Sys2Proof.Machine.execSchedRet fn s
  | .read size off => Sys2Proof.Machine.execRead size off s
  | .write size off data => Sys2Proof.Machine.execWrite size off data s

end Sys2Proof.Machine
end

