-- ==== Sys2Proof/Machine/Step.lean ====
section
/-! DEFINITION. One step of the block: one event, taken whole (spec/00_scope.md R10; spec/20_memory.md
R85, R88). The block fetches nothing (spec/10_state.md R31): what a step performs is the next event. -/

namespace Sys2Proof.Machine

/-- A step takes the next event: a tick is one step of the tick sequencer (42_swap_arbiter.md R178), an
access is the READ or WRITE its descriptor encodes (43_bus_and_nop.md R201), power-on is the reset
(70_reset_and_hazards.md R260). -/
def step (s : State) : Host.Outcome State Fault Refusal :=
  match nextEvent s with
  | (.tick, s') => .next (tickStep s')
  | (.access d data, s') => exec (decodeBus d data) s'
  | (.powerOn, s') => .next (powerOn s')

namespace State

/-- The event with which the host performs a row's instruction, placed before all others: the access
itself for a row of format BUS, and the WRITE of the word to `CMD` for a command (30_encoding.md R104).
Log entry 6 says how host accesses come to run. -/
def withFetchWord (s : State) (nbits w : Nat) : State :=
  if nbits ≤ 16 then { s with inputs := .access (BitVec.ofNat 15 w) 0#32 :: s.inputs }
  else { s with inputs := .access 0x600C#15 (BitVec.ofNat 32 w) :: s.inputs }

end State

end Sys2Proof.Machine
end

