-- ==== Sys2Proof/Machine/HostSide.lean ====
section
/-! DEFINITION. What the spec says of the host's side in terms of the block's operations: the
pseudo-instructions (spec/30_encoding.md R108, R109), the conversion of a delay to ticks
(spec/42_swap_arbiter.md R172), how the host serves an effect call (spec/40_scheduler.md R121), the
`step()` of the source, with which R134 compares the block's, and the main loop
(spec/70_reset_and_hazards.md R264). None of it is a step of the block. -/

namespace Sys2Proof.Machine

/-- `wr NAME, value` (30_encoding.md R108). -/
def wr (r : Reg) (v : Word) : Instr := .write .four (regOffset r) v

/-- `rd NAME` (30_encoding.md R108). -/
def rd (r : Reg) : Instr := .read .four (regOffset r)

/-- A command mnemonic alone "stands for `wr CMD, <its match value>`" (30_encoding.md R108). -/
def wrCommand (i : Instr) : Instr := wr .cmd (commandWord i)

/-- `setbr i, v` (30_encoding.md R109). -/
def pseudoSetbr (i : Fin 40) (v : Word) : List Instr := [wr (.br i) v]

/-- `subset m` (30_encoding.md R109). -/
def pseudoSubset (m : BitVec 40) : List Instr :=
  [wr .subsetLo (m.extractLsb' 0 32), wr .subsetHi ((m.extractLsb' 32 8).setWidth 32)]

/-- `render_list m` (30_encoding.md R109). -/
def pseudoRenderList (m : BitVec 40) : List Instr := pseudoSubset m ++ [wrCommand .renderList]

/-- `arm g` (30_encoding.md R109). -/
def pseudoArm (g : Word) : List Instr := [wr .data g, wrCommand .armSwap]

/-- `ms_to_ticks(d) = floor(d * TICK_HZ / 1000)` "computed without overflow" (42_swap_arbiter.md R172). -/
def msToTicks (tickHz : Nat) (d : Word) : Nat := d.toNat * tickHz / 1000

/-- `arm_in d` after its `rd TICK` returned T: `arm (T + ms_to_ticks(d)) mod 2^32`
(30_encoding.md R109; 42_swap_arbiter.md R172). -/
def pseudoArmIn (tickHz : Nat) (tickRead d : Word) : List Instr :=
  pseudoArm (tickRead + BitVec.ofNat 32 (msToTicks tickHz d))

/-- `ret fn, d` (30_encoding.md R109). -/
def pseudoRet (fn : Byte) (d : Word) : List Instr := [wr .data d, wrCommand (.schedRet fn)]

/-- `ack` (30_encoding.md R109). -/
def pseudoAck : List Instr := [wr .status 4#32]

/-- The host's accesses one after another, with no tick between them. -/
def runAll : List Instr → State → Host.Outcome State Fault Refusal
  | [], s => .next s
  | i :: rest, s =>
    match exec i s with
    | .next s' => runAll rest s'
    | .fault r => .fault r
    | .refused r => .refused r

/-- What `CALL` shows of an effect call: thread, tag and first flag (40_scheduler.md R121). -/
structure EffectCall where
  thread : Fin 3
  fn : Byte
  first : Bool
deriving DecidableEq, Repr

/-- What an effect may do to the block during its call: write brightness (40_scheduler.md R121), and
render or arm a swap (R133). -/
inductive EffectAction where
  | setbr (i : Fin 40) (v : BitVec 6)
  | render
  | renderList (m : BitVec 40)
  | arm (g : Word)
deriving DecidableEq, Repr

/-- The accesses of an action. -/
def EffectAction.accesses : EffectAction → List Instr
  | .setbr i v => pseudoSetbr i (v.setWidth 32)
  | .render => [wrCommand .render]
  | .renderList m => pseudoRenderList m
  | .arm g => pseudoArm g

/-- The action is a brightness write. -/
def EffectAction.isSetbr : EffectAction → Bool
  | .setbr _ _ => true
  | .render => false
  | .renderList _ => false
  | .arm _ => false

/-- What an effect does within its contract (40_scheduler.md R121; 93_implementation_defined.md U11): its
actions, the tag and the delay it returns, and its private state after. -/
structure EffectReturn (σ : Type) where
  actions : List EffectAction
  fn : Byte
  delay : Word
  effects : σ

/-- The effects, as functions of "(thread, tag, first, their private state)" (40_scheduler.md R134). -/
abbrev Effects (σ : Type) := EffectCall → σ → EffectReturn σ

/-- The brightness array after the actions of an effect. -/
def brightnessAfter : List EffectAction → Vector (BitVec 6) 40 → Vector (BitVec 6) 40
  | [], br => br
  | .setbr i v :: rest, br => brightnessAfter rest (br.set i.val v i.isLt)
  | .render :: rest, br => brightnessAfter rest br
  | .renderList _ :: rest, br => brightnessAfter rest br
  | .arm _ :: rest, br => brightnessAfter rest br

/-- The host's accesses for one effect call: the actions, then `ret` (40_scheduler.md R121;
70_reset_and_hazards.md R264). -/
def effectAccesses {σ : Type} (r : EffectReturn σ) : List Instr :=
  r.actions.flatMap EffectAction.accesses ++ pseudoRet r.fn r.delay

/-- What a `step()` works on: the thread table, the brightness array, the effects' private state, and the
calls made so far. -/
structure StepWork (σ : Type) where
  threads : Vector Thread 3
  br : Vector (BitVec 6) 40
  effects : σ
  calls : List EffectCall

/-- The source's "for each thread whose remaining delay has reached zero": the effect is invoked with
its first flag, and the next first flag says whether the tag changed (40_scheduler.md R121, R128). -/
def sourceCall {σ : Type} (eff : Effects σ) (t : Fin 3) (w : StepWork σ) : StepWork σ :=
  if w.threads[t].rem = 0#32 then
    let c : EffectCall := ⟨t, w.threads[t].fn, w.threads[t].first⟩
    let r := eff c w.effects
    { threads := w.threads.set t.val ⟨r.fn, r.fn != c.fn, r.delay⟩ t.isLt
      br := brightnessAfter r.actions w.br
      effects := r.effects
      calls := w.calls ++ [c] }
  else w

/-- One round over the threads, in ascending order (40_scheduler.md R129). -/
def sourcePass {σ : Type} (eff : Effects σ) (w : StepWork σ) : StepWork σ :=
  sourceCall eff 2 (sourceCall eff 1 (sourceCall eff 0 w))

/-- The minimum of the three remaining delays. -/
def leastRem (threads : Vector Thread 3) : Word :=
  wordMin threads[0].rem (wordMin threads[1].rem threads[2].rem)

/-- "The outer loop repeats until this minimum is non-zero" (40_scheduler.md R127): at most n rounds,
and none where it takes more. -/
def sourceLoop {σ : Type} (eff : Effects σ) : Nat → StepWork σ → Option (StepWork σ)
  | 0, w => if leastRem w.threads ≠ 0#32 then some w else none
  | n + 1, w => if leastRem w.threads ≠ 0#32 then some w else sourceLoop eff n (sourcePass eff w)

/-- The source's `step()` (40_scheduler.md R125, R127, R134): it "subtracts the delay elapsed since the
previous global step" and loops. -/
def sourceStep {σ : Type} (eff : Effects σ) (n : Nat) (elapsed : Word) (threads : Vector Thread 3)
    (br : Vector (BitVec 6) 40) (x : σ) : Option (StepWork σ) :=
  sourceLoop eff n
    { threads := Vector.ofFn fun t => { threads[t] with rem := satsub threads[t].rem elapsed }
      br := br
      effects := x
      calls := [] }

/-- The host in the middle of a program: the block, and how many accesses the program has made. -/
structure HostRun where
  state : State
  made : Nat
deriving DecidableEq, Repr

/-- One access of a program. "Ticks may fall between their accesses" (30_encoding.md R109; 00_scope.md
R10): before access number j, `gap j` of them do. -/
def hostAccess (gap : Nat → Nat) (i : Instr) (h : HostRun) : Option HostRun :=
  match exec i (ticks (gap h.made) h.state) with
  | .next t => some ⟨t, h.made + 1⟩
  | _ => none

/-- The accesses of a sequence, one after another. -/
def hostAccesses (gap : Nat → Nat) : List Instr → HostRun → Option HostRun
  | [], h => some h
  | i :: rest, h => (hostAccess gap i h).bind fun h' => hostAccesses gap rest h'

/-- The effect call that a word read from `CALL` shows (10_state.md R52). Its field `CUR` holds 0, 1 or 2;
the last arm, for a 3, is never reached. -/
def callShown (w : Word) : EffectCall where
  thread := if h : (w.extractLsb' 16 2).toNat < 3 then ⟨(w.extractLsb' 16 2).toNat, h⟩ else 0
  fn := w.extractLsb' 0 8
  first := w.getLsbD 8

/-- The inner loop of 70_reset_and_hazards.md R264, `while rd STATUS has BUSY = 1`, for at most n calls:
`rd CALL`, run the effect it shows and perform its accesses (40_scheduler.md R121). It answers with the
host after the poll that shows `BUSY = 0`, the effects' private state and the calls made, and none where
more than n calls are needed. -/
def serveCalls {σ : Type} (eff : Effects σ) (gap : Nat → Nat) :
    Nat → HostRun → σ → List EffectCall → Option (HostRun × σ × List EffectCall)
  | 0, h, x, calls =>
    (hostAccess gap (rd .status) h).bind fun h₁ =>
    if h₁.state.rdata.getLsbD 4 then none else some (h₁, x, calls)
  | n + 1, h, x, calls =>
    (hostAccess gap (rd .status) h).bind fun h₁ =>
    if h₁.state.rdata.getLsbD 4 then
      (hostAccess gap (rd .call) h₁).bind fun h₂ =>
      let c := callShown h₂.state.rdata
      let r := eff c x
      (hostAccesses gap (effectAccesses r) h₂).bind fun h₃ =>
      serveCalls eff gap n h₃ r.effects (calls ++ [c])
    else some (h₁, x, calls)

/-- `arm_in d` (30_encoding.md R109): `rd TICK`, and `arm` with the target computed from it. -/
def armIn (gap : Nat → Nat) (tickHz : Nat) (d : Word) (h : HostRun) : Option HostRun :=
  (hostAccess gap (rd .tick) h).bind fun h₁ =>
  hostAccesses gap (pseudoArmIn tickHz h₁.state.rdata d) h₁

/-- `waitswap` (30_encoding.md R109): `rd STATUS` until bit 0 is 0, n times at most, and none where
`PENDING` is still 1 then. -/
def waitSwap (gap : Nat → Nat) : Nat → HostRun → Option HostRun
  | 0, _ => none
  | n + 1, h =>
    (hostAccess gap (rd .status) h).bind fun h₁ =>
    if h₁.state.rdata.getLsbD 0 then waitSwap gap n h₁ else some h₁

/-- One iteration of the main loop (70_reset_and_hazards.md R264), with at most n effect calls and at most
`polls` polls of `waitswap`: SCHED_STEP, serve the calls, `rd RESULT`, RENDER, `arm_in`, `waitswap`, `ack`,
and ticks between any two of its accesses. It answers with the host, the effects' private state and the
calls made. -/
def mainLoop {σ : Type} (eff : Effects σ) (gap : Nat → Nat) (tickHz n polls : Nat) (h : HostRun)
    (x : σ) : Option (HostRun × σ × List EffectCall) :=
  (hostAccess gap (wrCommand .schedStep) h).bind fun h₁ =>
  (serveCalls eff gap n h₁ x []).bind fun r =>
  (hostAccess gap (rd .result) r.1).bind fun h₂ =>
  (hostAccess gap (wrCommand .render) h₂).bind fun h₃ =>
  (armIn gap tickHz h₂.state.rdata h₃).bind fun h₄ =>
  (waitSwap gap polls h₄).bind fun h₅ =>
  (hostAccesses gap pseudoAck h₅).map fun h₆ => (h₆, r.2)

end Sys2Proof.Machine
end

