-- ==== Sys2Proof/Safety.lean ====
section
/-! DEFINITION. The terms in which claims speak of runs: the invariants of spec/10_state.md R72, what a
successful run is (spec/60_exceptions.md R227), the recording of a fault (R222) and the helper
`begin_pass()` (spec/40_scheduler.md R123) in the spec's terms. -/

namespace Sys2Proof.Machine

namespace State

/-- R72 item 1: bits 40..63 of every frame, of `SHIFT` and of `LATCH` are 0. -/
abbrev FramesClean (s : State) : Prop :=
  (∀ p : Fin 64, s.bank0[p].extractLsb' 40 24 = 0#24) ∧
  (∀ p : Fin 64, s.bank1[p].extractLsb' 40 24 = 0#24) ∧
  s.shift.extractLsb' 40 24 = 0#24 ∧ s.latch.extractLsb' 40 24 = 0#24

/-- R72 item 2, with what makes it inductive: every thread of `DUE` has no delay left. -/
abbrev CallOutstanding (s : State) : Prop :=
  s.busy = true →
    s.sinit = true ∧ s.due ≠ 0#3 ∧ s.cur = lowest s.due ∧
    ∀ t : Fin 3, s.due.getLsbD t.val = true → s.threads[t].rem = 0#32

/-- R72 item 3: between two steps the last result is a lower bound of every remaining delay, and after a
completed step (whose result is not zero, 40_scheduler.md R127) it is the least of them. -/
abbrev LastIsLeast (s : State) : Prop :=
  s.busy = false → s.sinit = true →
    (∀ t : Fin 3, s.last ≤ s.threads[t].rem) ∧
    (s.last ≠ 0#32 → ∃ t : Fin 3, s.last = s.threads[t].rem)

/-- R72 item 4: without a fault the record is empty. -/
abbrev RecordEmpty (s : State) : Prop :=
  s.fault = false → s.faultCode = 0#8 ∧ s.faultInfo = 0#32

/-- With one it holds a code of R221 (93_implementation_defined.md X9: 0x08..0xFF are never recorded). -/
abbrev RecordLegal (s : State) : Prop :=
  s.fault = true → 1 ≤ s.faultCode.toNat ∧ s.faultCode.toNat ≤ 7

/-- Between two steps no thread is due and `CUR` is 0 (40_scheduler.md R123, R124). -/
abbrev NoCall (s : State) : Prop := s.busy = false → s.due = 0#3 ∧ s.cur = 0

/-- What holds in every reachable state (10_state.md R72), the bounds of the open parameters included
(00_scope.md R8, R9). -/
abbrev Inv (s : State) : Prop :=
  s.FramesClean ∧ s.CallOutstanding ∧ s.LastIsLeast ∧ s.RecordEmpty ∧ s.RecordLegal ∧ s.NoCall ∧
  s.cfg.wf

/-- t is s with a fault recorded and nothing else changed: the record holds the first fault since reset
(60_exceptions.md R222). -/
def FaultRecorded (code : Byte) (info : Word) (s t : State) : Prop :=
  t = { s with
    fault := true
    faultCode := if s.fault then s.faultCode else code
    faultInfo := if s.fault then s.faultInfo else info }

/-- t is what the helper `begin_pass()` leaves of u (40_scheduler.md R123): without a zero delay the step
completes with the least delay, and otherwise a pass opens over the threads whose delay is zero, lowest
index first. -/
def PassBegun (u t : State) : Prop :=
  ((∀ i : Fin 3, u.threads[i].rem ≠ 0#32) →
    t.busy = false ∧ t.due = 0#3 ∧ t.cur = 0 ∧
    (∀ i : Fin 3, t.last ≤ u.threads[i].rem) ∧ ∃ i : Fin 3, t.last = u.threads[i].rem) ∧
  ((∃ i : Fin 3, u.threads[i].rem = 0#32) →
    t.busy = true ∧ t.last = u.last ∧
    (∀ i : Fin 3, t.due.getLsbD i.val = true ↔ u.threads[i].rem = 0#32) ∧
    t.due.getLsbD t.cur.val = true ∧ ∀ i : Fin 3, i < t.cur → t.due.getLsbD i.val = false) ∧
  t = { u with last := t.last, due := t.due, cur := t.cur, busy := t.busy }

/-- The LEDs are dark and stay so until a swap: bank 0 streams and is all zeros (70_reset_and_hazards.md
R262). -/
abbrev Dark (s : State) : Prop :=
  s.active = false ∧ (∀ p : Fin 64, s.bank0[p] = 0#64) ∧ s.shift = 0#64 ∧ s.latch = 0#64

/-- LED i in phase p of bank k (10_state.md R33). -/
def ledBit (s : State) (k : Bool) (p : Fin 64) (i : Nat) : Bool := (s.bank k)[p].getLsbD i

end State

/-- The state after n steps. -/
def steps : Nat → State → Option State
  | 0, s => some s
  | n + 1, s =>
    match step s with
    | .next t => steps n t
    | _ => none

/-- The run of n steps from s is successful. A state with `FAULT = 1` is "faulted for good" and "never a
successful end of a run, whatever follows" (60_exceptions.md R227), power-on included: so no state of the
run, its end among them, has a fault. -/
def RunSucceeds (s : State) (n : Nat) : Prop :=
  ∀ k ≤ n, ∃ t, steps k s = some t ∧ t.fault = false

end Sys2Proof.Machine
end

