-- ==== Sys2Proof/Certificates/Slice0/Obligations.lean ====
section
/-! DEFINITION. The statements for the provers. -/

open Sys2Proof Sys2Proof.Machine

/-! ### Encoding -/

/-- Decoding the words of a well-formed instruction gives it back, with every operand at every value
(30_encoding.md R101, R102, R105). -/
def Obligations.DecodeEncodeRoundTrip : Prop :=
  ∀ i : Instr, i.WellFormed → decode (encode i) = some i

/-- A command word decodes to an instruction exactly when it is that command's word, so every word has
at most one meaning and no reserved bit is ignored (30_encoding.md R101, R104, R106). -/
def Obligations.CommandWordsExact : Prop :=
  ∀ (w : Word) (i : Instr), decodeCommand w = some i ↔ i.isCommand = true ∧ encode i = .command w

/-- Every one of the 2^15 descriptors is the descriptor of a well-formed access (30_encoding.md R102). -/
def Obligations.DescriptorsExact : Prop :=
  ∀ (d : Descriptor) (v : Word),
    (decodeBus d v).WellFormed ∧
    encode (decodeBus d v) = .bus d (if d.getLsbD 14 then v else 0#32)

/-- Words written out from the tables of R101, R102 and R105 decode to what they stand for. -/
def Obligations.SampleWordsDecode : Prop :=
  decodeCommand 0b00000000000000000000000000000000#32 = some .nop ∧
  decodeCommand 0b00000001000000000000000000000000#32 = some .render ∧
  decodeCommand 0b00000010000000000000000000000000#32 = some .renderList ∧
  decodeCommand 0b00010000000000000000000000000000#32 = some .armSwap ∧
  decodeCommand 0b00100000000000000000000000000000#32 = some .schedInit ∧
  decodeCommand 0b00100001000000000000000000000000#32 = some .schedStep ∧
  decodeCommand 0b00100010000000000000000010100101#32 = some (.schedRet 0xA5#8) ∧
  decodeCommand 0b00100010000000000000000100000000#32 = none ∧
  decodeBus 0b010000100010100#15 7#32 = .read .four 0x114 ∧
  decodeBus 0b110000100010100#15 7#32 = .write .four 0x114 7#32 ∧
  decodeBus 0b111000100000000#15 7#32 = .write .reserved 0x100 7#32

/-! ### Steps -/

/-- When the next event is a host access, the step is `exec` of the access the descriptor encodes, in the
state that the event leaves; and where the access is a 4-byte WRITE to `CMD` of a command's word, it is
`exec` of that command (43_bus_and_nop.md R201). What a step adds around `exec` is that the event is taken,
from the list where it is listed there. -/
def Obligations.StepRunsDecodedAccess : Prop :=
  (∀ (s : State) (d : Descriptor) (v : Word), (nextEvent s).1 = .access d v →
    step s = exec (decodeBus d v) (nextEvent s).2) ∧
  (∀ (s : State) (v : Word) (i : Instr), (nextEvent s).1 = .access 0x600C#15 v →
    decodeCommand v = some i → step s = exec i (nextEvent s).2) ∧
  (∀ (s : State) (d : Descriptor) (v : Word) (rest : List Event),
    s.inputs = .access d v :: rest →
      step s = exec (decodeBus d v) { s with inputs := rest }) ∧
  (∀ (s : State) (v : Word) (i : Instr) (rest : List Event),
    s.inputs = .access 0x600C#15 v :: rest → decodeCommand v = some i →
      step s = exec i { s with inputs := rest })

/-- When the next event is a tick the step is one step of the tick sequencer. The clauses on the order of
the events are the model's own (log entry 3): the listed ones come first; where none is listed the next
round is, its events and then a tick; and to take an event changes nothing else. So is the count of the
strobe's pulses (log entry 5): one at every latch tick. -/
def Obligations.StepTakesTick : Prop :=
  (∀ s : State, (nextEvent s).1 = .tick → step s = .next (tickStep (nextEvent s).2)) ∧
  (∀ (s : State) (e : Event) (rest : List Event), s.inputs = e :: rest →
    nextEvent s = (e, { s with inputs := rest })) ∧
  (∀ s : State, s.inputs = [] →
    nextEvent s =
      nextEvent { s with inputs := hostRound s ++ [.tick], rounds := s.rounds + 1 }) ∧
  (∀ s : State, (nextEvent s).2 =
    { s with inputs := (nextEvent s).2.inputs, rounds := (nextEvent s).2.rounds }) ∧
  (∀ s : State, (tickStep s).strobes = s.strobes + s.tick.toNat % 2)

/-- The block never stops: after everything the spec calls a fault it keeps running (60_exceptions.md
R227), and a tick has no failing case (R224). And the timer ticks infinitely often
(70_reset_and_hazards.md R280), as the model's rounds of events have it (log entry 3): from every state the
run comes to a tick. -/
def Obligations.BlockNeverStops : Prop :=
  (∀ (i : Instr) (s : State), ∃ t, exec i s = .next t) ∧
  (∀ s : State, ∃ t, step s = .next t) ∧
  ∀ s : State, ∃ n t, steps n s = some t ∧ (nextEvent t).1 = .tick

/-- Power-on: every state element of R260 is 0 and the configuration is unchanged, whatever was before
(70_reset_and_hazards.md R260). -/
def Obligations.PowerOnResetsAll : Prop :=
  ∀ s : State, (nextEvent s).1 = .powerOn →
    ∃ t, step s = .next t ∧
      (∀ i : Fin 40, t.br[i] = 0#6) ∧ (∀ k (p : Fin 64), (t.bank k)[p] = 0#64) ∧
      t.active = false ∧ t.pending = false ∧ t.target = 0#32 ∧ t.tick = 0#32 ∧
      t.shift = 0#64 ∧ t.latch = 0#64 ∧ t.swapped = false ∧
      (∀ i : Fin 3, t.threads[i] = ⟨0#8, false, 0#32⟩) ∧
      t.sinit = false ∧ t.busy = false ∧ t.due = 0#3 ∧ t.cur = 0 ∧ t.last = 0#32 ∧
      t.ieSwap = false ∧ t.ieFault = false ∧
      t.fault = false ∧ t.faultCode = 0#8 ∧ t.faultInfo = 0#32 ∧
      t.data = 0#32 ∧ t.subset = 0#40 ∧ t.cfg = s.cfg

/-- No step changes the configuration, reset included (10_state.md R39, R44). -/
def Obligations.ConfigurationIsFixed : Prop :=
  ∀ s t : State, step s = .next t → t.cfg = s.cfg

/-! ### Reset -/

/-- After reset `STATUS`, `CTRL`, `RESULT` and `CALL` read 0, whatever an earlier READ returned, and the
interrupt line is low (70_reset_and_hazards.md R261). -/
def Obligations.RegistersAfterReset : Prop :=
  (∀ r : Reg, r = .status ∨ r = .ctrl ∨ r = .result ∨ r = .call →
    ∀ v : Word, ∃ t, exec (rd r) { State.reset with rdata := v } = .next t ∧ t.rdata = 0#32) ∧
  irq State.reset = false

/-- The LEDs stay dark after reset until the first swap (70_reset_and_hazards.md R262): reset is dark,
every step that changes no active bank, a host access or a tick, leaves a dark state dark, and the first
tick (value 0) shifts frame 0 of bank 0, zeros; with no host access at all they stay dark for good. -/
def Obligations.LedsStayDarkAfterReset : Prop :=
  State.reset.Dark ∧
  (∀ s t : State, s.Dark → step s = .next t → t.active = s.active → t.Dark) ∧
  State.reset.tick = 0#32 ∧ (tickStep State.reset).shift = State.reset.bank0[(0 : Fin 64)] ∧
  ∀ n : Nat, (ticks n State.reset).Dark ∧ (ticks n State.reset).tick = BitVec.ofNat 32 n

/-- The invariant holds at reset. -/
def Obligations.InvariantAtReset : Prop := State.reset.Inv

/-- Every step keeps the invariant of R72 (with the strengthening that makes it inductive), from any
state that has it. -/
def Obligations.StepKeepsInvariant : Prop :=
  ∀ s t : State, s.Inv → step s = .next t → t.Inv

/-! ### The register window -/

/-- The register map of R45: which offset is which register, and which offsets are unmapped. -/
def Obligations.RegisterMapExact : Prop :=
  (∀ (off : Nat) (r : Reg), regOf off = some r ↔ off = regOffset r) ∧
  (∀ off : Nat, off < 4096 → off % 4 = 0 →
    (regOf off = none ↔
      off = 0x03C ∨ (0x058 ≤ off ∧ off ≤ 0x0FC) ∨ (0x1A0 ≤ off ∧ off ≤ 0x1FC) ∨
      (0x300 ≤ off ∧ off ≤ 0x7FC) ∨ (0xC00 ≤ off ∧ off ≤ 0xFFC)))

/-- READ (43_bus_and_nop.md R202): an admitted one returns the register's word and changes nothing. -/
def Obligations.ReadReturnsRegister : Prop :=
  ∀ (s : State) (r : Reg),
    exec (.read .four (regOffset r)) s = .next { s with rdata := readReg s r } ∧
    exec (rd r) s = .next { s with rdata := readReg s r }

/-- Admission (20_memory.md R82): only an access of 4 bytes at a multiple of 4 that is mapped is admitted;
any other one, whatever its value, records `BAD_ACCESS` with its kind, size and offset; a READ then
returns 0, a WRITE changes nothing, and no other state changes. -/
def Obligations.BadAccessFaults : Prop :=
  (∀ (size : AccessSize) (off : Nat),
    (admitted size off).isSome = true ↔ size = .four ∧ off % 4 = 0 ∧ ∃ r, off = regOffset r) ∧
  ∀ (s : State) (size : AccessSize) (off : Nat), off < 4096 →
    ¬(size = .four ∧ off % 4 = 0 ∧ ∃ r, off = regOffset r) →
    (∃ t, exec (.read size off) s = .next t ∧
      State.FaultRecorded 0x02#8 (BitVec.ofNat 32 (off + 4096 * sizeBytes size))
        { s with rdata := 0#32 } t) ∧
    ∀ v : Word, ∃ t, exec (.write size off v) s = .next t ∧
      State.FaultRecorded 0x02#8 (BitVec.ofNat 32 (off + 4096 * sizeBytes size + 65536)) s t

/-- A WRITE to a read-only register records `RO_WRITE` and changes nothing else (10_state.md R71). -/
def Obligations.ReadOnlyWriteFaults : Prop :=
  ∀ (s : State) (r : Reg) (v : Word),
    r ≠ .ctrl → r ≠ .status → r ≠ .cmd → r ≠ .data → r ≠ .subsetLo → r ≠ .subsetHi →
    (∀ i, r ≠ .br i) →
    ∃ t, exec (wr r v) s = .next t ∧
      State.FaultRecorded 0x03#8 (BitVec.ofNat 32 (regOffset r + 0x14000)) s t

/-- `CTRL` (10_state.md R47). -/
def Obligations.CtrlRegister : Prop :=
  (∀ s : State, exec (rd .ctrl) s =
    .next { s with rdata := BitVec.ofNat 32 (s.ieSwap.toNat + 2 * s.ieFault.toNat) }) ∧
  (∀ (s : State) (v : Word), v.toNat < 4 → exec (wr .ctrl v) s =
    .next { s with ieSwap := decide (v.toNat % 2 = 1), ieFault := decide (2 ≤ v.toNat) }) ∧
  (∀ (s : State) (v : Word), 4 ≤ v.toNat → ∃ t, exec (wr .ctrl v) s = .next t ∧
    State.FaultRecorded 0x04#8 0x00014004#32 s t) ∧
  readReg State.reset .ctrl = 0#32

/-- `STATUS` (10_state.md R48): its six flags; a write clears `SWAPPED` where bit 2 of the value is 1
and ignores every other bit. -/
def Obligations.StatusRegister : Prop :=
  (∀ s : State, exec (rd .status) s =
    .next { s with
      rdata := BitVec.ofNat 32 (s.pending.toNat + 2 * s.active.toNat + 4 * s.swapped.toNat
        + 8 * s.sinit.toNat + 16 * s.busy.toNat + 32 * s.fault.toNat) }) ∧
  (∀ (s : State) (v : Word), exec (wr .status v) s =
    .next { s with swapped := s.swapped && decide (v.toNat / 4 % 2 = 0) }) ∧
  readReg State.reset .status = 0#32

/-- `DATA` (10_state.md R50) keeps what is written, it is the operand of ARM_SWAP and of SCHED_RET, and no
command changes it. -/
def Obligations.DataRegister : Prop :=
  (∀ s : State, exec (rd .data) s = .next { s with rdata := s.data }) ∧
  (∀ (s : State) (v : Word), exec (wr .data v) s = .next { s with data := v }) ∧
  (∀ s t : State, s.pending = false → exec .armSwap s = .next t → t.target = s.data) ∧
  (∀ (s t : State) (f : Byte), s.busy = true → exec (.schedRet f) s = .next t →
    t.threads[s.cur].rem = s.data) ∧
  (∀ (s t : State) (i : Instr), i.isCommand = true → exec i s = .next t → t.data = s.data) ∧
  State.reset.data = 0#32

/-- `SUBSET_LO` and `SUBSET_HI` (10_state.md R55, R56). -/
def Obligations.SubsetRegisters : Prop :=
  (∀ s : State, exec (rd .subsetLo) s =
    .next { s with rdata := BitVec.ofNat 32 (s.subset.toNat % 2 ^ 32) }) ∧
  (∀ (s : State) (v : Word), ∃ t, exec (wr .subsetLo v) s = .next t ∧
    t = { s with subset := t.subset } ∧
    ∀ j : Nat, t.subset.getLsbD j = if j < 32 then v.getLsbD j else s.subset.getLsbD j) ∧
  (∀ s : State, exec (rd .subsetHi) s =
    .next { s with rdata := BitVec.ofNat 32 (s.subset.toNat / 2 ^ 32) }) ∧
  (∀ (s : State) (v : Word), v.toNat < 256 → ∃ t, exec (wr .subsetHi v) s = .next t ∧
    t = { s with subset := t.subset } ∧
    ∀ j : Nat, t.subset.getLsbD j = if j < 32 then s.subset.getLsbD j else v.getLsbD (j - 32)) ∧
  (∀ (s : State) (v : Word), 256 ≤ v.toNat → ∃ t, exec (wr .subsetHi v) s = .next t ∧
    State.FaultRecorded 0x04#8 0x00014028#32 s t) ∧
  State.reset.subset = 0#40

/-- `BR[i]` (10_state.md R65): a value of 0..63 is kept, in that element only and in no bank; a greater
one faults `VALUE_RANGE` and changes nothing. -/
def Obligations.BrightnessRegister : Prop :=
  (∀ (s : State) (i : Fin 40), exec (rd (.br i)) s =
    .next { s with rdata := BitVec.ofNat 32 s.br[i].toNat }) ∧
  (∀ (s : State) (i : Fin 40) (v : Word), v.toNat < 64 →
    ∃ t, exec (wr (.br i) v) s = .next t ∧ t = { s with br := t.br } ∧
      t.br[i].toNat = v.toNat ∧ ∀ j : Fin 40, j ≠ i → t.br[j] = s.br[j]) ∧
  (∀ (s : State) (i : Fin 40) (v : Word), 64 ≤ v.toNat →
    ∃ t, exec (wr (.br i) v) s = .next t ∧
      State.FaultRecorded 0x04#8 (BitVec.ofNat 32 (0x14100 + 4 * i.val)) s t)

/-- `CALL` (10_state.md R52): the outstanding effect call, and 0 where there is none. -/
def Obligations.CallRegister : Prop :=
  (∀ s : State, s.busy = true → exec (rd .call) s =
    .next { s with
      rdata := BitVec.ofNat 32 (2 ^ 31 + 2 ^ 16 * s.cur.val
        + 2 ^ 8 * s.threads[s.cur].first.toNat + s.threads[s.cur].fn.toNat) }) ∧
  (∀ s : State, s.busy = false → exec (rd .call) s = .next { s with rdata := 0#32 }) ∧
  (∀ (s : State) (v : Word), ∃ t, exec (wr .call v) s = .next t ∧
    State.FaultRecorded 0x03#8 0x00014018#32 s t)

/-- `THREAD_REM[t]` and `THREAD_FN[t]` (10_state.md R60, R61). -/
def Obligations.ThreadRegisters : Prop :=
  (∀ (s : State) (t : Fin 3), exec (rd (.threadRem t)) s =
    .next { s with rdata := s.threads[t].rem }) ∧
  (∀ (s : State) (t : Fin 3), exec (rd (.threadFn t)) s =
    .next { s with
      rdata := BitVec.ofNat 32 (2 ^ 8 * s.threads[t].first.toNat + s.threads[t].fn.toNat) }) ∧
  (∀ (s : State) (t : Fin 3) (v : Word), ∃ u, exec (wr (.threadRem t) v) s = .next u ∧
    State.FaultRecorded 0x03#8 (BitVec.ofNat 32 (0x14040 + 8 * t.val)) s u) ∧
  (∀ (s : State) (t : Fin 3) (v : Word), ∃ u, exec (wr (.threadFn t) v) s = .next u ∧
    State.FaultRecorded 0x03#8 (BitVec.ofNat 32 (0x14044 + 8 * t.val)) s u)

/-- The `BANK` window (10_state.md R70): the two words of a frame of either bank; the high word's bits
31:8 are 0 in every state with the invariant; a write faults `RO_WRITE`. -/
def Obligations.BankWindow : Prop :=
  (∀ (s : State) (k : Bool) (p : Fin 64),
    exec (.read .four (0x800 + 0x200 * k.toNat + 8 * p.val)) s =
      .next { s with rdata := BitVec.ofNat 32 ((s.bank k)[p].toNat % 2 ^ 32) }) ∧
  (∀ (s : State) (k : Bool) (p : Fin 64),
    exec (.read .four (0x800 + 0x200 * k.toNat + 8 * p.val + 4)) s =
      .next { s with rdata := BitVec.ofNat 32 ((s.bank k)[p].toNat / 2 ^ 32) }) ∧
  (∀ (s : State) (k : Bool) (p : Fin 64), s.Inv → (s.bank k)[p].toNat / 2 ^ 32 < 2 ^ 8) ∧
  (∀ (s : State) (k : Bool) (p : Fin 64) (hi : Bool) (v : Word),
    ∃ t, exec (wr (.bank k p hi) v) s = .next t ∧
      State.FaultRecorded 0x03#8
        (BitVec.ofNat 32 (0x14800 + 0x200 * k.toNat + 8 * p.val + 4 * hi.toNat)) s t)

/-- The other read-only registers: `ID`, `RESULT`, `TICK`, `TARGET`, `FAULT_CODE`, `FAULT_INFO`, `LATCH_LO`,
`LATCH_HI` and `LUT[b]` (10_state.md R46, R51, R53, R54, R57, R58, R59, R66), and `CMD`, which reads 0
(R49). The clause on `LATCH_HI` needs the invariant's zeros. -/
def Obligations.OtherReadValues : Prop :=
  ∀ s : State,
    exec (rd .id) s = .next { s with rdata := 0x01400328#32 } ∧
    exec (rd .result) s = .next { s with rdata := s.last } ∧
    exec (rd .tick) s = .next { s with rdata := s.tick } ∧
    exec (rd .target) s = .next { s with rdata := s.target } ∧
    exec (rd .faultCode) s = .next { s with rdata := BitVec.ofNat 32 s.faultCode.toNat } ∧
    exec (rd .faultInfo) s = .next { s with rdata := s.faultInfo } ∧
    exec (rd .latchLo) s = .next { s with rdata := BitVec.ofNat 32 (s.latch.toNat % 2 ^ 32) } ∧
    (s.Inv → exec (rd .latchHi) s =
      .next { s with rdata := BitVec.ofNat 32 (s.latch.toNat / 2 ^ 32) }) ∧
    (∀ b : Fin 64, exec (rd (.lut b)) s =
      .next { s with rdata := BitVec.ofNat 32 s.cfg.pulseLut[b].toNat }) ∧
    exec (rd .cmd) s = .next { s with rdata := 0#32 }

/-! ### Commands through `CMD` -/

/-- `Exec` (30_encoding.md R104): a WRITE of a command's word to `CMD` is the command, and a word that
matches no row records `ILLEGAL_CMD` with the word, before any check of a command, and nothing else
changes. -/
def Obligations.CmdWriteIsTheCommand : Prop :=
  (∀ (s : State) (w : Word) (i : Instr), decodeCommand w = some i →
    exec (.write .four 0x00C w) s = exec i s) ∧
  (∀ (s : State) (w : Word), decodeCommand w = none →
    ∃ t, exec (.write .four 0x00C w) s = .next t ∧ State.FaultRecorded 0x01#8 w s t)

/-- Every word that matches no row faults `ILLEGAL_CMD` with the word, in every state, and changes
nothing else: an unknown opcode, or a reserved bit that is set (30_encoding.md R106). -/
def Obligations.IllegalWordFaults : Prop :=
  ∀ (s : State) (w : Word),
    (w.extractLsb' 24 8 ∉ [0x00#8, 0x01#8, 0x02#8, 0x10#8, 0x20#8, 0x21#8, 0x22#8] ∨
      (w.extractLsb' 24 8 = 0x22#8 ∧ w.extractLsb' 8 16 ≠ 0#16) ∨
      (w.extractLsb' 24 8 ≠ 0x22#8 ∧ w.extractLsb' 0 24 ≠ 0#24)) →
    ∃ t, exec (.write .four 0x00C w) s = .next t ∧ State.FaultRecorded 0x01#8 w s t

/-- NOP, and the WRITE of its word, leave every state element as it was; a word of its opcode with another
bit set is not NOP and faults (43_bus_and_nop.md R200). -/
def Obligations.NopChangesNothing : Prop :=
  ∀ s : State, exec .nop s = .next s ∧ exec (.write .four 0x00C 0x00000000#32) s = .next s ∧
    ∀ w : Word, w ≠ 0#32 → w.extractLsb' 24 8 = 0#8 →
      ∃ t, exec (.write .four 0x00C w) s = .next t ∧ State.FaultRecorded 0x01#8 w s t

/-! ### Faults and the interrupt line -/

/-- Whatever faults has no other effect: a host operation that faults (it records a fault where none is
recorded) changes nothing but the record, and the record only where it is the first fault since reset; a
READ that faults returns 0, and nothing else changes what the last READ returned (60_exceptions.md R222,
R226). -/
def Obligations.FaultHasNoOtherEffect : Prop :=
  ∀ (s t u : State) (i : Instr),
    exec i { s with fault := false } = .next u → u.fault = true → exec i s = .next t →
    t = { s with
      fault := true
      faultCode := if s.fault then s.faultCode else u.faultCode
      faultInfo := if s.fault then s.faultInfo else u.faultInfo
      rdata := t.rdata } ∧
    (∀ size off, i = .read size off → t.rdata = 0#32) ∧
    ((∀ size off, i ≠ .read size off) → t.rdata = s.rdata)

/-- Only the first fault since reset is recorded, and no access and no tick clears it: with a fault
recorded, every step but power-on leaves `FAULT`, `FAULT_CODE` and `FAULT_INFO` as they are
(60_exceptions.md R222, R228; 10_state.md R43). A run that reaches a state with a fault is no successful
run, whatever follows, power-on included (R227); and a run without power-on is successful exactly when it
ends without a fault. -/
def Obligations.FaultRecordIsSticky : Prop :=
  (∀ s t : State, s.fault = true → (nextEvent s).1 ≠ .powerOn → step s = .next t →
    t.fault = true ∧ t.faultCode = s.faultCode ∧ t.faultInfo = s.faultInfo) ∧
  (∀ (s u : State) (k n : Nat), k ≤ n → steps k s = some u → u.fault = true → ¬RunSucceeds s n) ∧
  (∀ (s t : State) (n : Nat),
    (∀ k < n, ∀ u, steps k s = some u → (nextEvent u).1 ≠ .powerOn) → steps n s = some t →
    (RunSucceeds s n ↔ t.fault = false))

/-- Which operation raises which fault (60_exceptions.md R224), commands issued on their own; and a tick
raises none. -/
def Obligations.FaultCausesByOperation : Prop :=
  (∀ (s t : State) (i : Instr), exec i s = .next t → s.fault = false → t.fault = true →
    match i with
    | .nop => False
    | .render => t.faultCode = 0x06#8
    | .renderList => t.faultCode = 0x06#8
    | .armSwap => t.faultCode = 0x07#8
    | .schedInit => t.faultCode = 0x05#8
    | .schedStep => t.faultCode = 0x05#8
    | .schedRet _ => t.faultCode = 0x05#8
    | .read _ _ => t.faultCode = 0x02#8
    | .write size off _ =>
      t.faultCode = 0x02#8 ∨ t.faultCode = 0x03#8 ∨ t.faultCode = 0x04#8 ∨
      (size = .four ∧ off = 0x00C ∧
        (t.faultCode = 0x01#8 ∨ t.faultCode = 0x05#8 ∨ t.faultCode = 0x06#8 ∨
          t.faultCode = 0x07#8))) ∧
  (∀ s : State, (tickStep s).fault = s.fault ∧ (tickStep s).faultCode = s.faultCode ∧
    (tickStep s).faultInfo = s.faultInfo)

/-- The interrupt line (60_exceptions.md R230): it is high exactly when an enabled source is pending;
`wr STATUS, 0x4` takes the swap's share away; and once it is high for a fault, it stays high until
power-on or until the host writes `IE_FAULT = 0`. -/
def Obligations.InterruptLine : Prop :=
  (∀ s : State, irq s = true ↔
    (s.swapped = true ∧ s.ieSwap = true) ∨ (s.fault = true ∧ s.ieFault = true)) ∧
  (∀ s : State, ∃ t, exec (wr .status 4#32) s = .next t ∧ irq t = (s.fault && s.ieFault)) ∧
  (∀ s t : State, s.fault = true → s.ieFault = true → (nextEvent s).1 ≠ .powerOn →
    step s = .next t → irq t = true ∨ t.ieFault = false)

/-! ### Renderer -/

/-- RENDER (41_renderer.md R151, R152). -/
def Obligations.RenderRasterizesAll : Prop :=
  (∀ s : State, s.pending = false →
    ∃ t, exec .render s = .next t ∧
      (∀ (p : Fin 64) (i : Fin 40), t.ledBit (!s.active) p i.val =
        decide (p.val < (s.cfg.pulseLut[s.br[i].toNat]'s.br[i].isLt).toNat)) ∧
      (∀ (p : Fin 64) (i : Nat), 40 ≤ i → t.ledBit (!s.active) p i = false) ∧
      t.bank s.active = s.bank s.active ∧
      t = { s with bank0 := t.bank0, bank1 := t.bank1 }) ∧
  (∀ s : State, s.pending = true →
    ∃ t, exec .render s = .next t ∧ State.FaultRecorded 0x06#8 0x01000000#32 s t)

/-- RENDER_LIST (41_renderer.md R151, R153). -/
def Obligations.RenderListRasterizesSubset : Prop :=
  (∀ s : State, s.pending = false →
    ∃ t, exec .renderList s = .next t ∧
      (∀ (p : Fin 64) (i : Fin 40), s.subset.getLsbD i.val = true → t.ledBit (!s.active) p i.val =
        decide (p.val < (s.cfg.pulseLut[s.br[i].toNat]'s.br[i].isLt).toNat)) ∧
      (∀ (p : Fin 64) (i : Nat), s.subset.getLsbD i = false →
        t.ledBit (!s.active) p i = s.ledBit (!s.active) p i) ∧
      t.bank s.active = s.bank s.active ∧
      t = { s with bank0 := t.bank0, bank1 := t.bank1 }) ∧
  (∀ s : State, s.pending = true →
    ∃ t, exec .renderList s = .next t ∧ State.FaultRecorded 0x06#8 0x02000000#32 s t)

/-- The decoding law (41_renderer.md R154): right after a RENDER that did not fault, every LED is on in
exactly as many phases as its pulse length, and those are the first ones; after a RENDER_LIST so is
every LED of `SUBSET`. -/
def Obligations.DecodingLaw : Prop :=
  ∀ (s t : State) (c : Instr) (i : Fin 40), s.cfg.wf → s.pending = false →
    c = .render ∨ (c = .renderList ∧ s.subset.getLsbD i.val = true) → exec c s = .next t →
    (List.finRange 64).countP (fun p => t.ledBit (!t.active) p i.val)
      = (pulseLength s.cfg s.br[i]).toNat ∧
    ∀ p : Fin 64, t.ledBit (!t.active) p i.val = true ↔ p.val < (pulseLength s.cfg s.br[i]).toNat

/-- The subset law (41_renderer.md R155): from any bank content, brightness and mask, RENDER_LIST agrees
with RENDER on the LEDs of the mask and leaves every other bit of the bank unchanged. -/
def Obligations.SubsetLaw : Prop :=
  ∀ (s t u : State) (p : Fin 64) (i : Nat), s.pending = false →
    exec .render s = .next t → exec .renderList s = .next u →
    u.ledBit (!s.active) p i =
      if s.subset.getLsbD i then t.ledBit (!s.active) p i else s.ledBit (!s.active) p i

/-- The nesting law (41_renderer.md R156): after a RENDER the LEDs that are on in a later phase are on
in every earlier one, and an LED of greater brightness is on wherever one of lesser brightness is. -/
def Obligations.NestingLaw : Prop :=
  ∀ s t : State, s.cfg.wf → s.pending = false → exec .render s = .next t →
    (∀ (i : Nat) (p q : Fin 64), p ≤ q → t.ledBit (!s.active) q i = true →
      t.ledBit (!s.active) p i = true) ∧
    (∀ (i j : Fin 40) (p : Fin 64), s.br[i] ≤ s.br[j] → t.ledBit (!s.active) p i.val = true →
      t.ledBit (!s.active) p j.val = true) ∧
    (∀ i : Fin 40, t.ledBit (!s.active) 0 i.val = true ↔ pulseLength s.cfg s.br[i] ≠ 0#7) ∧
    (∀ i : Fin 40, t.ledBit (!s.active) 63 i.val = true ↔ pulseLength s.cfg s.br[i] = 64#7)

/-- No step writes the bank that is active, and while a swap is pending no step writes any bank
(41_renderer.md R150; 20_memory.md R90; 42_swap_arbiter.md R182). Power-on is the exception. -/
def Obligations.StreamedBankIsNeverWritten : Prop :=
  ∀ s t : State, (nextEvent s).1 ≠ .powerOn → step s = .next t →
    t.bank s.active = s.bank s.active ∧
    (s.pending = true → t.bank0 = s.bank0 ∧ t.bank1 = s.bank1)

/-! ### Swap arbiter and tick sequencer -/

/-- ARM_SWAP (42_swap_arbiter.md R171). -/
def Obligations.ArmSwapSetsTarget : Prop :=
  (∀ s : State, s.pending = false →
    exec .armSwap s = .next { s with target := s.data, pending := true }) ∧
  (∀ s : State, s.pending = true →
    ∃ t, exec .armSwap s = .next t ∧ State.FaultRecorded 0x07#8 0x10000000#32 s t)

/-- One tick (42_swap_arbiter.md R178, R179, R180): an odd tick latches; an even one of phase p shifts
frame p of the bank that is active after the swap, if there is one; nothing else changes, but for the
strobe that goes with a latch. -/
def Obligations.TickShiftsOrLatches : Prop :=
  (∀ s : State, s.tick.toNat % 2 = 1 →
    tickStep s = { s with
      latch := s.shift
      strobes := (tickStep s).strobes
      tick := BitVec.ofNat 32 (s.tick.toNat + 1) }) ∧
  (∀ (s : State) (p : Fin 64), s.tick.toNat % 128 = 2 * p.val →
    (p = 0 ∧ s.pending = true ∧
        (s.tick.toNat + 2 ^ 32 - s.target.toNat) % 2 ^ 32 < s.cfg.lagWindow →
      tickStep s = { s with
        active := !s.active
        pending := false
        swapped := true
        shift := (s.bank (!s.active))[p]
        tick := BitVec.ofNat 32 (s.tick.toNat + 1) }) ∧
    (¬(p = 0 ∧ s.pending = true ∧
        (s.tick.toNat + 2 ^ 32 - s.target.toNat) % 2 ^ 32 < s.cfg.lagWindow) →
      tickStep s = { s with
        shift := (s.bank s.active)[p]
        tick := BitVec.ofNat 32 (s.tick.toNat + 1) }))

/-- The swap is the only operation that changes which bank is active, and it happens only at a tick of
phase 0 with an armed target within the lag window, which it uses up (42_swap_arbiter.md R179, R185). -/
def Obligations.OnlyADueSwapChangesActive : Prop :=
  ∀ s t : State, (nextEvent s).1 ≠ .powerOn → step s = .next t → t.active ≠ s.active →
    (nextEvent s).1 = .tick ∧
    s.tick.toNat % 128 = 0 ∧ s.pending = true ∧
    (s.tick.toNat + 2 ^ 32 - s.target.toNat) % 2 ^ 32 < s.cfg.lagWindow ∧
    t.pending = false ∧ t.swapped = true

/-- Who writes what (20_memory.md R90): no host operation changes `ACTIVE`, `TICK`, `SHIFT` or `LATCH`,
clears `PENDING`, or sets `SWAPPED`; no tick changes `TARGET`, `BR`, `SUBSET`, `DATA`, `CTRL`, the
scheduler's state or a bank, sets `PENDING`, or clears `SWAPPED`. -/
def Obligations.FieldOwnership : Prop :=
  (∀ (s t : State) (i : Instr), exec i s = .next t →
    t.active = s.active ∧ t.tick = s.tick ∧ t.shift = s.shift ∧ t.latch = s.latch ∧
    (s.pending = true → t.pending = true ∧ t.target = s.target) ∧
    (t.swapped = true → s.swapped = true)) ∧
  (∀ s : State,
    (tickStep s).target = s.target ∧ (tickStep s).br = s.br ∧ (tickStep s).subset = s.subset ∧
    (tickStep s).data = s.data ∧ (tickStep s).ieSwap = s.ieSwap ∧
    (tickStep s).ieFault = s.ieFault ∧ (tickStep s).threads = s.threads ∧
    (tickStep s).sinit = s.sinit ∧ (tickStep s).busy = s.busy ∧ (tickStep s).due = s.due ∧
    (tickStep s).cur = s.cur ∧ (tickStep s).last = s.last ∧
    (tickStep s).bank0 = s.bank0 ∧ (tickStep s).bank1 = s.bank1 ∧
    ((tickStep s).pending = true → s.pending = true) ∧
    (s.swapped = true → (tickStep s).swapped = true))

/-- Swap time for a target ahead, over ticks with no host access between them (42_swap_arbiter.md R183):
with a target at most 2^32 - `LAG_WINDOW` ticks ahead, the swap is performed by the first tick at or after
the target that begins a PWM cycle, at most 127 ticks after the target, and by no tick before it. -/
def Obligations.SwapAtFirstBoundaryAfterTarget : Prop :=
  ∀ (s : State) (delta : Nat), s.cfg.wf → s.pending = true →
    delta = (s.target.toNat + 2 ^ 32 - s.tick.toNat) % 2 ^ 32 →
    delta ≤ 2 ^ 32 - s.cfg.lagWindow →
    ∃ k, delta ≤ k ∧ k ≤ delta + 127 ∧ (s.tick.toNat + k) % 128 = 0 ∧
      (∀ j, j ≤ k → (ticks j s).pending = true ∧ (ticks j s).active = s.active) ∧
      (ticks (k + 1) s).active = !s.active ∧ (ticks (k + 1) s).pending = false ∧
      (ticks (k + 1) s).swapped = true

/-- Swap time for a target already passed, over ticks with no host access between them
(42_swap_arbiter.md R184). If a tick that begins a PWM cycle comes before the lag reaches `LAG_WINDOW`, the
first such tick performs the swap. A target that is `LAG_WINDOW` or more ticks late when the first such
tick comes is not swapped by any tick before the counter has come round to the target again, and no fault
is recorded. -/
def Obligations.OverdueSwapNowOrAfterTheWrap : Prop :=
  ∀ (s : State) (late k : Nat), s.cfg.wf → s.pending = true →
    late = (s.tick.toNat + 2 ^ 32 - s.target.toNat) % 2 ^ 32 → 0 < late →
    k < 128 → (s.tick.toNat + k) % 128 = 0 →
    (late + k < s.cfg.lagWindow →
      (∀ j, j ≤ k → (ticks j s).pending = true ∧ (ticks j s).active = s.active) ∧
      (ticks (k + 1) s).active = !s.active ∧ (ticks (k + 1) s).pending = false) ∧
    (s.cfg.lagWindow ≤ late + k → ∀ n, n ≤ 2 ^ 32 - late →
      (ticks n s).pending = true ∧ (ticks n s).active = s.active ∧ (ticks n s).fault = s.fault)

/-- A PWM cycle without host accesses (42_swap_arbiter.md R182, R186): from a cycle's first tick on,
frame p of one bank, the one that is active after that tick, is latched at tick 2p + 1 of the cycle and
held for two ticks. -/
def Obligations.CycleShowsOneBankInOrder : Prop :=
  ∀ (s : State) (p : Fin 64), s.tick.toNat % 128 = 0 →
    (ticks (2 * p.val + 2) s).latch = (s.bank (tickStep s).active)[p] ∧
    (ticks (2 * p.val + 3) s).latch = (s.bank (tickStep s).active)[p]

/-- The duty law (41_renderer.md R157): in a cycle that streams a bank rendered from the present
brightness, each LED is lit in as many of the 64 phases as its pulse length. -/
def Obligations.DutyLaw : Prop :=
  ∀ (s t : State) (i : Fin 40), s.cfg.wf → s.pending = false → exec .render s = .next t →
    ∀ u : State, u.tick.toNat % 128 = 0 → u.bank (tickStep u).active = t.bank (!s.active) →
      (List.finRange 64).countP (fun p => (ticks (2 * p.val + 2) u).latch.getLsbD i.val)
        = (pulseLength s.cfg s.br[i]).toNat

/-! ### Scheduler -/

/-- The helper `begin_pass()` (40_scheduler.md R123). -/
def Obligations.BeginPassOpensOrCompletes : Prop :=
  ∀ s : State, s.PassBegun (beginPass s)

/-- SCHED_INIT (40_scheduler.md R124). -/
def Obligations.SchedInitCreatesThreads : Prop :=
  (∀ s : State, s.busy = false →
    exec .schedInit s = .next { s with
      threads := #v[⟨s.cfg.initFn[0], true, 0#32⟩, ⟨s.cfg.initFn[1], true, 1000#32⟩,
        ⟨s.cfg.initFn[2], true, 1500#32⟩]
      last := 0#32
      due := 0#3
      cur := 0
      sinit := true }) ∧
  (∀ s : State, s.busy = true →
    ∃ t, exec .schedInit s = .next t ∧ State.FaultRecorded 0x05#8 0x20000000#32 s t)

/-- SCHED_STEP (40_scheduler.md R125): the last result is subtracted from every delay, saturating at 0
(Nat subtraction), and a pass begins. -/
def Obligations.SchedStepBeginsStep : Prop :=
  (∀ s : State, s.sinit = true → s.busy = false →
    ∃ u t : State, exec .schedStep s = .next t ∧ u = { s with threads := u.threads } ∧
      (∀ i : Fin 3, u.threads[i].rem.toNat = s.threads[i].rem.toNat - s.last.toNat ∧
        u.threads[i].fn = s.threads[i].fn ∧ u.threads[i].first = s.threads[i].first) ∧
      u.PassBegun t) ∧
  (∀ s : State, s.sinit = false ∨ s.busy = true →
    ∃ t, exec .schedStep s = .next t ∧ State.FaultRecorded 0x05#8 0x21000000#32 s t)

/-- SCHED_RET (40_scheduler.md R126, R128): the thread that was called gets the tag and the delay, its
first flag says whether the tag differs from the one the call was made with, and the pass goes on with
the next due thread or, where there is none, `begin_pass()` follows. -/
def Obligations.SchedRetReturnsFromCall : Prop :=
  (∀ (s : State) (f : Byte), s.busy = true →
    ∃ u t : State, exec (.schedRet f) s = .next t ∧ u = { s with threads := u.threads, due := u.due } ∧
      u.threads[s.cur].fn = f ∧ u.threads[s.cur].rem = s.data ∧
      (u.threads[s.cur].first = true ↔ f ≠ s.threads[s.cur].fn) ∧
      (∀ i : Fin 3, i ≠ s.cur → u.threads[i] = s.threads[i]) ∧
      (∀ i : Fin 3, u.due.getLsbD i.val = true ↔ s.due.getLsbD i.val = true ∧ i ≠ s.cur) ∧
      (u.due ≠ 0#3 → t = { u with cur := t.cur } ∧ u.due.getLsbD t.cur.val = true ∧
        ∀ i : Fin 3, i < t.cur → u.due.getLsbD i.val = false) ∧
      (u.due = 0#3 → u.PassBegun t)) ∧
  (∀ (s : State) (f : Byte), s.busy = false →
    ∃ t, exec (.schedRet f) s = .next t ∧
      State.FaultRecorded 0x05#8 (0x22000000#32 ||| f.setWidth 32) s t)

/-- A step completes only with the least of the three remaining delays, which is not zero and which
`RESULT` then reads (40_scheduler.md R127): whenever a host operation other than SCHED_INIT changes
`LAST`, or ends the outstanding call, `LAST` is that minimum and `BUSY` is 0. -/
def Obligations.StepCompletesWithMinimum : Prop :=
  ∀ (s t : State) (i : Instr), exec i s = .next t →
    i ≠ .schedInit → (∀ w, i = .write .four 0x00C w → w ≠ 0x20000000#32) →
    t.last ≠ s.last ∨ (s.busy = true ∧ t.busy = false) →
    t.busy = false ∧ t.last ≠ 0#32 ∧ readReg t .result = t.last ∧
    (∀ j : Fin 3, t.last ≤ t.threads[j].rem) ∧ ∃ j : Fin 3, t.last = t.threads[j].rem

/-- Call order (40_scheduler.md R129): within a pass the calls go up in thread index, and a thread that
was called, whatever delay it returned, is not called again in that pass. The premise is the
invariant. -/
def Obligations.CallsAscendWithinAPass : Prop :=
  ∀ (s t : State) (f : Byte), s.Inv → s.busy = true → exec (.schedRet f) s = .next t →
    without s.due s.cur ≠ 0#3 →
    t.busy = true ∧ s.cur < t.cur ∧ t.due = without s.due s.cur ∧
    t.due.getLsbD s.cur.val = false ∧ t.threads[t.cur].rem = 0#32

/-- A returned delay of zero (40_scheduler.md R126, R130). The step stays open, and the thread gets the tag
it returned and no delay, with its first flag set exactly when it handed off. While other threads of the
pass are due, it waits and keeps that entry; the last call of the pass opens the next pass of the same
step, and every thread without a delay, the one that just returned and those that returned zero before
it, is due in it. -/
def Obligations.ZeroDelayIsCalledAgainInTheStep : Prop :=
  ∀ (s t : State) (f : Byte), s.busy = true → s.data = 0#32 → exec (.schedRet f) s = .next t →
    t.busy = true ∧ t.last = s.last ∧
    t.threads[s.cur].fn = f ∧ t.threads[s.cur].rem = 0#32 ∧
    (t.threads[s.cur].first = true ↔ f ≠ s.threads[s.cur].fn) ∧
    (∀ j : Fin 3, j ≠ s.cur → t.threads[j] = s.threads[j]) ∧
    (without s.due s.cur ≠ 0#3 →
      t.due = without s.due s.cur ∧ t.due.getLsbD s.cur.val = false) ∧
    (without s.due s.cur = 0#3 →
      t.due.getLsbD s.cur.val = true ∧
      ∀ j : Fin 3, t.due.getLsbD j.val = true ↔ t.threads[j].rem = 0#32)

/-- The subtraction of SCHED_STEP in a state with the invariant (40_scheduler.md R125, 10_state.md R72
item 3): it never saturates, and after it at least one thread is due, unless `LAST` is 0 and no delay
was. -/
def Obligations.SubtractionMakesAThreadDue : Prop :=
  ∀ s : State, s.Inv → s.sinit = true → s.busy = false →
    (∀ i : Fin 3,
      (subtractElapsed s).threads[i].rem.toNat + s.last.toNat = s.threads[i].rem.toNat) ∧
    ((∃ i : Fin 3, (subtractElapsed s).threads[i].rem = 0#32) ∨
      (s.last = 0#32 ∧ ∀ i : Fin 3, s.threads[i].rem ≠ 0#32))

/-- A step need not end (40_scheduler.md R132). If every effect returns delay 0, then once a call is
outstanding no number of served calls completes the step, whatever ticks fall between the accesses: the
call returns, another is outstanding, and where the effect only writes brightness no fault is recorded.
The effects write brightness, render and arm swaps (R133); that they make no other access is the model's
choice (log entry 15).
And the block has the infinite run: where the host returns delay 0 in every round, from one tick to the
next and without end, the call is outstanding after every number of steps, no fault is recorded, the
result stays as it was, and the timer ticks on. That events come in rounds, each closed by one tick, so
that every second step of this run is a tick, is the model's choice (log entry 3). -/
def Obligations.EndlessZeroDelaysNeverComplete : Prop :=
  (∀ (σ : Type) (eff : Effects σ) (gap : Nat → Nat) (h : HostRun) (x : σ),
    (∀ c y, (eff c y).delay = 0#32) → h.state.busy = true →
    (∀ n : Nat, serveCalls eff gap n h x [] = none) ∧
    ∀ (c : EffectCall) (y : σ), ∃ h', hostAccesses gap (effectAccesses (eff c y)) h = some h' ∧
      h'.state.busy = true ∧
      ((∀ a ∈ (eff c y).actions, a.isSetbr = true) → h'.state.fault = h.state.fault)) ∧
  (∀ (s : State) (f : Byte), s.busy = true → s.data = 0#32 → s.inputs = [] →
    s.later = .repeated [.access 0x600C#15 (commandWord (.schedRet f))] →
    ∀ n : Nat, ∃ t, steps n s = some t ∧ t.busy = true ∧ t.fault = s.fault ∧ t.last = s.last ∧
      t.tick = s.tick + BitVec.ofNat 32 (n / 2))

/-- Correspondence with the source's `step()` (40_scheduler.md R134): for effects that are functions of
thread, tag, first flag and their private state, SCHED_STEP and the SCHED_RETs that serve its calls make
the same calls in the same order and leave the same threads, the same brightness and the same result as
the source's `step()`, and the one completes exactly when the other does, whatever ticks fall between the
accesses. The effects write brightness, render and arm swaps (R133); that they make no other access is the
model's choice (log entry 15). -/
def Obligations.SchedulerRefinesSourceStep : Prop :=
  ∀ (σ : Type) (eff : Effects σ) (gap : Nat → Nat) (h h₁ : HostRun) (x : σ),
    h.state.sinit = true → h.state.busy = false →
    hostAccess gap (wrCommand .schedStep) h = some h₁ →
    (∀ (n : Nat) (w : StepWork σ),
      sourceStep eff n h.state.last h.state.threads h.state.br x = some w →
      ∃ m h₂, serveCalls eff gap m h₁ x [] = some (h₂, w.effects, w.calls) ∧
        h₂.state.busy = false ∧ h₂.state.threads = w.threads ∧ h₂.state.br = w.br ∧
        h₂.state.last = leastRem w.threads) ∧
    (∀ (m : Nat) (h₂ : HostRun) (y : σ) (calls : List EffectCall),
      serveCalls eff gap m h₁ x [] = some (h₂, y, calls) →
      ∃ (n : Nat) (w : StepWork σ),
        sourceStep eff n h.state.last h.state.threads h.state.br x = some w ∧
        w.effects = y ∧ w.calls = calls ∧
        h₂.state.threads = w.threads ∧ h₂.state.br = w.br ∧ h₂.state.last = leastRem w.threads)

/-! ### The host's sequences -/

/-- `arm_in d` (42_swap_arbiter.md R172; 70_reset_and_hazards.md R274): armed from the present `TICK`,
with a delay inside the distance bound, the target lies exactly `ms_to_ticks(d)` ticks ahead, so that
the swap is never early. -/
def Obligations.ArmInHitsItsTarget : Prop :=
  ∀ (s : State) (tickHz : Nat) (d : Word), s.pending = false → s.cfg.wf →
    msToTicks tickHz d ≤ 2 ^ 32 - s.cfg.lagWindow →
    ∃ t, runAll (pseudoArmIn tickHz s.tick d) s = .next t ∧ t.pending = true ∧ t.tick = s.tick ∧
      t.fault = s.fault ∧
      (t.target.toNat + 2 ^ 32 - t.tick.toNat) % 2 ^ 32 = msToTicks tickHz d

/-- `render_list m` (30_encoding.md R109), with no tick between its accesses: the LEDs of the mask m are
rasterized into the inactive bank and every other bit of it is left as it was. -/
def Obligations.RenderListSequence : Prop :=
  ∀ (s : State) (m : BitVec 40), s.pending = false →
    ∃ t, runAll (pseudoRenderList m) s = .next t ∧ t.subset = m ∧ t.fault = s.fault ∧
      (∀ (p : Fin 64) (i : Fin 40), m.getLsbD i.val = true →
        t.ledBit (!s.active) p i.val = decide (p.val < (pulseLength s.cfg s.br[i]).toNat)) ∧
      ∀ (p : Fin 64) (i : Nat), m.getLsbD i = false →
        t.ledBit (!s.active) p i = s.ledBit (!s.active) p i

/-- The main loop (70_reset_and_hazards.md R264), with any ticks between its accesses and effects that
only write brightness (log entry 15). Whenever an iteration that starts between two steps with nothing
pending ends, it has recorded no fault, has acknowledged the swap, and the other bank is active: it
streams, rendered from the brightness the effects left. And the iteration does end where the step
completes, between any two accesses at least one tick and at most g fall, the delay is no shorter than
the time between reading `TICK` and arming (2 g) and is within the distance bound (R274), and the host
polls for long enough. -/
def Obligations.MainLoopShowsTheFrame : Prop :=
  ∀ (σ : Type) (eff : Effects σ) (gap : Nat → Nat) (tickHz n polls : Nat) (h : HostRun) (x : σ),
    h.state.cfg.wf → h.state.sinit = true → h.state.busy = false → h.state.pending = false →
    (∀ c y, ∀ a ∈ (eff c y).actions, a.isSetbr = true) →
    (∀ (h' : HostRun) (y : σ) (calls : List EffectCall),
      mainLoop eff gap tickHz n polls h x = some (h', y, calls) →
      h'.state.fault = h.state.fault ∧ h'.state.busy = false ∧ h'.state.pending = false ∧
      h'.state.swapped = false ∧ h'.state.active = !h.state.active ∧ h'.state.last ≠ 0#32 ∧
      ∀ (p : Fin 64) (i : Fin 40), h'.state.ledBit h'.state.active p i.val =
        decide (p.val < (pulseLength h.state.cfg h'.state.br[i]).toNat)) ∧
    (∀ (g : Nat) (h₁ h₂ : HostRun) (y : σ) (calls : List EffectCall),
      hostAccess gap (wrCommand .schedStep) h = some h₁ →
      serveCalls eff gap n h₁ x [] = some (h₂, y, calls) →
      (∀ j, 1 ≤ gap j ∧ gap j ≤ g) → 2 * g ≤ msToTicks tickHz h₂.state.last →
      msToTicks tickHz h₂.state.last ≤ 2 ^ 32 - h.state.cfg.lagWindow →
      msToTicks tickHz h₂.state.last + 128 ≤ polls →
      ∃ h', mainLoop eff gap tickHz n polls h x = some (h', y, calls))
end

