-- ==== Sys2Proof/Laws/Decode.lean ====
section
/-! SUPPORT. The fields of the encoded forms: what `decodeCommand` answers with, the row of SCHED_RET, and
the three fields of a bus descriptor. -/

namespace Sys2Proof

@[simp] theorem and_full (w : Word) : w &&& 0xFFFFFFFF#32 = w := by
  have : (0xFFFFFFFF#32) = BitVec.allOnes 32 := by decide
  rw [this, BitVec.and_allOnes]

theorem decodeCommand_isCommand {w : Word} {i : Instr} (h : decodeCommand w = some i) :
    i.isCommand = true := by
  unfold decodeCommand at h
  repeat' split at h
  all_goals first
    | (cases h; done)
    | (injection h with h; subst h; rfl)

/-- The word of SCHED_RET f, as an OR (spec/30_encoding.md R108). -/
theorem schedRet_word (f : Byte) :
    (0x22#8 ++ 0#16 ++ f : BitVec 32) = 0x22000000#32 ||| f.setWidth 32 := by
  have e : (0x22#8 ++ 0#16 : BitVec 24) = 0x220000#24 := by decide
  have l : ∀ i < 32,
      (0x22000000#32).getLsbD i = (!decide (i < 8) && (0x220000#24).getLsbD (i - 8)) := by decide
  rw [e]
  apply BitVec.eq_of_getLsbD_eq
  intro i hi
  rw [BitVec.getLsbD_append, BitVec.getLsbD_or, l i hi, BitVec.getLsbD_setWidth]
  by_cases h : i < 8
  · simp [h]; intro; omega
  · have : f.getLsbD i = false := BitVec.getLsbD_of_ge f i (by omega)
    simp [h, this]

theorem low_byte (w : Word) : (w.extractLsb' 0 8).setWidth 32 = w &&& 0xFF#32 := by
  have l : ∀ i < 32, (0xFF#32).getLsbD i = decide (i < 8) := by decide
  apply BitVec.eq_of_getLsbD_eq
  intro i hi
  rw [BitVec.getLsbD_and, l i hi, BitVec.getLsbD_setWidth, BitVec.getLsbD_extractLsb']
  simp [Bool.and_comm]; omega

/-- The row of SCHED_RET: mask 0xFFFFFF00, match 0x22000000. -/
theorem schedRet_row (w : Word) :
    w &&& 0xFFFFFF00#32 = 0x22000000#32 ↔ w = 0x22#8 ++ 0#16 ++ w.extractLsb' 0 8 := by
  rw [schedRet_word, low_byte]
  constructor
  · intro h
    rw [← h, ← BitVec.and_or_distrib_left]; simp
  · intro h
    have : w &&& 0xFFFFFF00#32 = (0x22000000#32 ||| w &&& 0xFF#32) &&& 0xFFFFFF00#32 := by rw [← h]
    rw [this, BitVec.and_or_distrib_right, BitVec.and_assoc]; simp

theorem schedRet_tag (f : Byte) : (0x22#8 ++ 0#16 ++ f : BitVec 32).extractLsb' 0 8 = f := by
  apply BitVec.eq_of_getLsbD_eq
  intro i hi
  rw [BitVec.getLsbD_extractLsb', BitVec.getLsbD_append]
  simp [hi]

theorem schedRet_opcode (f : Byte) :
    (0x22#8 ++ 0#16 ++ f : BitVec 32).extractLsb' 24 8 = 0x22#8 := by
  apply BitVec.eq_of_getLsbD_eq
  intro i hi
  rw [BitVec.getLsbD_extractLsb', BitVec.getLsbD_append, BitVec.getLsbD_append]
  rw [if_neg (by omega), if_neg (by omega), show 24 + i - 8 - 16 = i by omega]
  simp [hi]

theorem schedRet_reserved (f : Byte) :
    (0x22#8 ++ 0#16 ++ f : BitVec 32).extractLsb' 8 16 = 0#16 := by
  apply BitVec.eq_of_getLsbD_eq
  intro i hi
  rw [BitVec.getLsbD_extractLsb', BitVec.getLsbD_append, BitVec.getLsbD_append]
  simp [hi]

/-- The word of a command decodes to it. -/
theorem decodeCommand_commandWord {i : Instr} (h : i.isCommand = true) :
    decodeCommand (commandWord i) = some i := by
  cases i
  case schedRet f =>
    have other : ∀ c : Word, c.extractLsb' 24 8 ≠ 0x22#8 → (0x22#8 ++ 0#16 ++ f : BitVec 32) ≠ c := by
      rintro c hc rfl
      exact hc (schedRet_opcode f)
    simp only [commandWord, encode, decodeCommand, and_full, schedRet_row, schedRet_tag]
    repeat rw [if_neg (other _ (by decide))]
    exact if_pos trivial
  all_goals first
    | decide
    | (simp [Instr.isCommand] at h)

theorem decodeSize_encodeSize (z : AccessSize) : decodeSize (encodeSize z) = z := by
  cases z <;> decide

theorem encodeSize_decodeSize : ∀ z : BitVec 2, encodeSize (decodeSize z) = z := by decide

/-! The fields of a descriptor (spec/30_encoding.md R102). -/

theorem descriptor_kind (b : Bool) (z : BitVec 2) (o : BitVec 12) :
    (BitVec.ofBool b ++ z ++ o : BitVec 15).getLsbD 14 = b := by
  rw [BitVec.getLsbD_append, BitVec.getLsbD_append]; simp

theorem descriptor_size (b : Bool) (z : BitVec 2) (o : BitVec 12) :
    (BitVec.ofBool b ++ z ++ o : BitVec 15).extractLsb' 12 2 = z := by
  apply BitVec.eq_of_getLsbD_eq
  intro i hi
  rw [BitVec.getLsbD_extractLsb', BitVec.getLsbD_append, BitVec.getLsbD_append]
  simp [hi]

theorem descriptor_offset (b : Bool) (z : BitVec 2) (o : BitVec 12) :
    (BitVec.ofBool b ++ z ++ o : BitVec 15).extractLsb' 0 12 = o := by
  apply BitVec.eq_of_getLsbD_eq
  intro i hi
  rw [BitVec.getLsbD_extractLsb', BitVec.getLsbD_append]
  simp [hi]

theorem descriptor_fields (d : Descriptor) :
    d = (BitVec.ofBool (d.getLsbD 14) ++ d.extractLsb' 12 2 ++ d.extractLsb' 0 12 : BitVec 15) := by
  apply BitVec.eq_of_getLsbD_eq
  intro i hi
  rw [BitVec.getLsbD_append, BitVec.getLsbD_append]
  by_cases h : i < 12
  · simp [h]
  · by_cases h2 : i - 12 < 2
    · simp [h, h2, show 12 + (i - 12) = i by omega]
    · have : i = 14 := by omega
      subst this; simp

end Sys2Proof
end

