-- ==== Sys2Proof/Laws/State.lean ====
section
/-! SUPPORT. The fields of a state after each of the named updates of Machine/Ops.lean, and for every other
operation on states one equation that says which fields it may change. -/

namespace Sys2Proof.Machine

/-! `setThread` -/

@[simp] theorem setThread_br (t : Fin 3) (th : Thread) (s : State) : (setThread t th s).br = s.br := rfl
@[simp] theorem setThread_bank0 (t : Fin 3) (th : Thread) (s : State) : (setThread t th s).bank0 = s.bank0 := rfl
@[simp] theorem setThread_bank1 (t : Fin 3) (th : Thread) (s : State) : (setThread t th s).bank1 = s.bank1 := rfl
@[simp] theorem setThread_active (t : Fin 3) (th : Thread) (s : State) : (setThread t th s).active = s.active := rfl
@[simp] theorem setThread_pending (t : Fin 3) (th : Thread) (s : State) : (setThread t th s).pending = s.pending := rfl
@[simp] theorem setThread_target (t : Fin 3) (th : Thread) (s : State) : (setThread t th s).target = s.target := rfl
@[simp] theorem setThread_tick (t : Fin 3) (th : Thread) (s : State) : (setThread t th s).tick = s.tick := rfl
@[simp] theorem setThread_shift (t : Fin 3) (th : Thread) (s : State) : (setThread t th s).shift = s.shift := rfl
@[simp] theorem setThread_latch (t : Fin 3) (th : Thread) (s : State) : (setThread t th s).latch = s.latch := rfl
@[simp] theorem setThread_swapped (t : Fin 3) (th : Thread) (s : State) : (setThread t th s).swapped = s.swapped := rfl
@[simp] theorem setThread_sinit (t : Fin 3) (th : Thread) (s : State) : (setThread t th s).sinit = s.sinit := rfl
@[simp] theorem setThread_busy (t : Fin 3) (th : Thread) (s : State) : (setThread t th s).busy = s.busy := rfl
@[simp] theorem setThread_due (t : Fin 3) (th : Thread) (s : State) : (setThread t th s).due = s.due := rfl
@[simp] theorem setThread_cur (t : Fin 3) (th : Thread) (s : State) : (setThread t th s).cur = s.cur := rfl
@[simp] theorem setThread_last (t : Fin 3) (th : Thread) (s : State) : (setThread t th s).last = s.last := rfl
@[simp] theorem setThread_ieSwap (t : Fin 3) (th : Thread) (s : State) : (setThread t th s).ieSwap = s.ieSwap := rfl
@[simp] theorem setThread_ieFault (t : Fin 3) (th : Thread) (s : State) : (setThread t th s).ieFault = s.ieFault := rfl
@[simp] theorem setThread_fault (t : Fin 3) (th : Thread) (s : State) : (setThread t th s).fault = s.fault := rfl
@[simp] theorem setThread_faultCode (t : Fin 3) (th : Thread) (s : State) : (setThread t th s).faultCode = s.faultCode := rfl
@[simp] theorem setThread_faultInfo (t : Fin 3) (th : Thread) (s : State) : (setThread t th s).faultInfo = s.faultInfo := rfl
@[simp] theorem setThread_data (t : Fin 3) (th : Thread) (s : State) : (setThread t th s).data = s.data := rfl
@[simp] theorem setThread_subset (t : Fin 3) (th : Thread) (s : State) : (setThread t th s).subset = s.subset := rfl
@[simp] theorem setThread_cfg (t : Fin 3) (th : Thread) (s : State) : (setThread t th s).cfg = s.cfg := rfl
@[simp] theorem setThread_inputs (t : Fin 3) (th : Thread) (s : State) : (setThread t th s).inputs = s.inputs := rfl
@[simp] theorem setThread_later (t : Fin 3) (th : Thread) (s : State) : (setThread t th s).later = s.later := rfl
@[simp] theorem setThread_rounds (t : Fin 3) (th : Thread) (s : State) : (setThread t th s).rounds = s.rounds := rfl
@[simp] theorem setThread_rdata (t : Fin 3) (th : Thread) (s : State) : (setThread t th s).rdata = s.rdata := rfl
@[simp] theorem setThread_strobes (t : Fin 3) (th : Thread) (s : State) : (setThread t th s).strobes = s.strobes := rfl

/-! `setBank` -/

@[simp] theorem setBank_br (k : Bool) (b : Bank) (s : State) : (setBank k b s).br = s.br := by cases k <;> rfl
@[simp] theorem setBank_active (k : Bool) (b : Bank) (s : State) : (setBank k b s).active = s.active := by cases k <;> rfl
@[simp] theorem setBank_pending (k : Bool) (b : Bank) (s : State) : (setBank k b s).pending = s.pending := by cases k <;> rfl
@[simp] theorem setBank_target (k : Bool) (b : Bank) (s : State) : (setBank k b s).target = s.target := by cases k <;> rfl
@[simp] theorem setBank_tick (k : Bool) (b : Bank) (s : State) : (setBank k b s).tick = s.tick := by cases k <;> rfl
@[simp] theorem setBank_shift (k : Bool) (b : Bank) (s : State) : (setBank k b s).shift = s.shift := by cases k <;> rfl
@[simp] theorem setBank_latch (k : Bool) (b : Bank) (s : State) : (setBank k b s).latch = s.latch := by cases k <;> rfl
@[simp] theorem setBank_swapped (k : Bool) (b : Bank) (s : State) : (setBank k b s).swapped = s.swapped := by cases k <;> rfl
@[simp] theorem setBank_threads (k : Bool) (b : Bank) (s : State) : (setBank k b s).threads = s.threads := by cases k <;> rfl
@[simp] theorem setBank_sinit (k : Bool) (b : Bank) (s : State) : (setBank k b s).sinit = s.sinit := by cases k <;> rfl
@[simp] theorem setBank_busy (k : Bool) (b : Bank) (s : State) : (setBank k b s).busy = s.busy := by cases k <;> rfl
@[simp] theorem setBank_due (k : Bool) (b : Bank) (s : State) : (setBank k b s).due = s.due := by cases k <;> rfl
@[simp] theorem setBank_cur (k : Bool) (b : Bank) (s : State) : (setBank k b s).cur = s.cur := by cases k <;> rfl
@[simp] theorem setBank_last (k : Bool) (b : Bank) (s : State) : (setBank k b s).last = s.last := by cases k <;> rfl
@[simp] theorem setBank_ieSwap (k : Bool) (b : Bank) (s : State) : (setBank k b s).ieSwap = s.ieSwap := by cases k <;> rfl
@[simp] theorem setBank_ieFault (k : Bool) (b : Bank) (s : State) : (setBank k b s).ieFault = s.ieFault := by cases k <;> rfl
@[simp] theorem setBank_fault (k : Bool) (b : Bank) (s : State) : (setBank k b s).fault = s.fault := by cases k <;> rfl
@[simp] theorem setBank_faultCode (k : Bool) (b : Bank) (s : State) : (setBank k b s).faultCode = s.faultCode := by cases k <;> rfl
@[simp] theorem setBank_faultInfo (k : Bool) (b : Bank) (s : State) : (setBank k b s).faultInfo = s.faultInfo := by cases k <;> rfl
@[simp] theorem setBank_data (k : Bool) (b : Bank) (s : State) : (setBank k b s).data = s.data := by cases k <;> rfl
@[simp] theorem setBank_subset (k : Bool) (b : Bank) (s : State) : (setBank k b s).subset = s.subset := by cases k <;> rfl
@[simp] theorem setBank_cfg (k : Bool) (b : Bank) (s : State) : (setBank k b s).cfg = s.cfg := by cases k <;> rfl
@[simp] theorem setBank_inputs (k : Bool) (b : Bank) (s : State) : (setBank k b s).inputs = s.inputs := by cases k <;> rfl
@[simp] theorem setBank_later (k : Bool) (b : Bank) (s : State) : (setBank k b s).later = s.later := by cases k <;> rfl
@[simp] theorem setBank_rounds (k : Bool) (b : Bank) (s : State) : (setBank k b s).rounds = s.rounds := by cases k <;> rfl
@[simp] theorem setBank_rdata (k : Bool) (b : Bank) (s : State) : (setBank k b s).rdata = s.rdata := by cases k <;> rfl
@[simp] theorem setBank_strobes (k : Bool) (b : Bank) (s : State) : (setBank k b s).strobes = s.strobes := by cases k <;> rfl

/-! `raiseFault` -/

/-- `raiseFault` writes the record and nothing else, and the record of a first fault stays. -/
theorem raiseFault_eq (c : FaultCode) (w : Word) (s : State) :
    raiseFault c w s = { s with
      fault := true
      faultCode := if s.fault then s.faultCode else faultByte c
      faultInfo := if s.fault then s.faultInfo else w } := by
  unfold raiseFault
  by_cases h : s.fault
  · cases s; simp_all
  · simp [h]

@[simp] theorem raiseFault_fault (c : FaultCode) (w : Word) (s : State) :
    (raiseFault c w s).fault = true := by rw [raiseFault_eq]

@[simp] theorem raiseFault_br (c : FaultCode) (w : Word) (s : State) : (raiseFault c w s).br = s.br := by rw [raiseFault_eq]
@[simp] theorem raiseFault_bank0 (c : FaultCode) (w : Word) (s : State) : (raiseFault c w s).bank0 = s.bank0 := by rw [raiseFault_eq]
@[simp] theorem raiseFault_bank1 (c : FaultCode) (w : Word) (s : State) : (raiseFault c w s).bank1 = s.bank1 := by rw [raiseFault_eq]
@[simp] theorem raiseFault_active (c : FaultCode) (w : Word) (s : State) : (raiseFault c w s).active = s.active := by rw [raiseFault_eq]
@[simp] theorem raiseFault_pending (c : FaultCode) (w : Word) (s : State) : (raiseFault c w s).pending = s.pending := by rw [raiseFault_eq]
@[simp] theorem raiseFault_target (c : FaultCode) (w : Word) (s : State) : (raiseFault c w s).target = s.target := by rw [raiseFault_eq]
@[simp] theorem raiseFault_tick (c : FaultCode) (w : Word) (s : State) : (raiseFault c w s).tick = s.tick := by rw [raiseFault_eq]
@[simp] theorem raiseFault_shift (c : FaultCode) (w : Word) (s : State) : (raiseFault c w s).shift = s.shift := by rw [raiseFault_eq]
@[simp] theorem raiseFault_latch (c : FaultCode) (w : Word) (s : State) : (raiseFault c w s).latch = s.latch := by rw [raiseFault_eq]
@[simp] theorem raiseFault_swapped (c : FaultCode) (w : Word) (s : State) : (raiseFault c w s).swapped = s.swapped := by rw [raiseFault_eq]
@[simp] theorem raiseFault_threads (c : FaultCode) (w : Word) (s : State) : (raiseFault c w s).threads = s.threads := by rw [raiseFault_eq]
@[simp] theorem raiseFault_sinit (c : FaultCode) (w : Word) (s : State) : (raiseFault c w s).sinit = s.sinit := by rw [raiseFault_eq]
@[simp] theorem raiseFault_busy (c : FaultCode) (w : Word) (s : State) : (raiseFault c w s).busy = s.busy := by rw [raiseFault_eq]
@[simp] theorem raiseFault_due (c : FaultCode) (w : Word) (s : State) : (raiseFault c w s).due = s.due := by rw [raiseFault_eq]
@[simp] theorem raiseFault_cur (c : FaultCode) (w : Word) (s : State) : (raiseFault c w s).cur = s.cur := by rw [raiseFault_eq]
@[simp] theorem raiseFault_last (c : FaultCode) (w : Word) (s : State) : (raiseFault c w s).last = s.last := by rw [raiseFault_eq]
@[simp] theorem raiseFault_ieSwap (c : FaultCode) (w : Word) (s : State) : (raiseFault c w s).ieSwap = s.ieSwap := by rw [raiseFault_eq]
@[simp] theorem raiseFault_ieFault (c : FaultCode) (w : Word) (s : State) : (raiseFault c w s).ieFault = s.ieFault := by rw [raiseFault_eq]
@[simp] theorem raiseFault_data (c : FaultCode) (w : Word) (s : State) : (raiseFault c w s).data = s.data := by rw [raiseFault_eq]
@[simp] theorem raiseFault_subset (c : FaultCode) (w : Word) (s : State) : (raiseFault c w s).subset = s.subset := by rw [raiseFault_eq]
@[simp] theorem raiseFault_cfg (c : FaultCode) (w : Word) (s : State) : (raiseFault c w s).cfg = s.cfg := by rw [raiseFault_eq]
@[simp] theorem raiseFault_inputs (c : FaultCode) (w : Word) (s : State) : (raiseFault c w s).inputs = s.inputs := by rw [raiseFault_eq]
@[simp] theorem raiseFault_later (c : FaultCode) (w : Word) (s : State) : (raiseFault c w s).later = s.later := by rw [raiseFault_eq]
@[simp] theorem raiseFault_rounds (c : FaultCode) (w : Word) (s : State) : (raiseFault c w s).rounds = s.rounds := by rw [raiseFault_eq]
@[simp] theorem raiseFault_rdata (c : FaultCode) (w : Word) (s : State) : (raiseFault c w s).rdata = s.rdata := by rw [raiseFault_eq]
@[simp] theorem raiseFault_strobes (c : FaultCode) (w : Word) (s : State) : (raiseFault c w s).strobes = s.strobes := by rw [raiseFault_eq]

/-! The other operations -/

theorem setBank_eq (k : Bool) (b : Bank) (s : State) :
    setBank k b s =
      { s with bank0 := if k then s.bank0 else b, bank1 := if k then b else s.bank1 } := by
  cases k <;> rfl

theorem acknowledge_eq (v : Word) (s : State) :
    acknowledge v s = { s with swapped := s.swapped && !v.getLsbD 2 } := by
  unfold acknowledge; cases h : v.getLsbD 2 <;> simp

theorem subtractElapsed_eq (s : State) :
    subtractElapsed s = { s with threads := (subtractElapsed s).threads } := rfl

theorem recordReturn_eq (f : Byte) (s : State) :
    recordReturn f s =
      { s with threads := (recordReturn f s).threads, due := without s.due s.cur } := rfl

theorem beginPass_eq (s : State) :
    beginPass s = { s with
      last := (beginPass s).last
      due := (beginPass s).due
      cur := (beginPass s).cur
      busy := (beginPass s).busy } := by
  unfold beginPass; split <;> rfl

theorem continuePass_eq (s : State) :
    continuePass s = { s with
      last := (continuePass s).last
      due := (continuePass s).due
      cur := (continuePass s).cur
      busy := (continuePass s).busy } := by
  unfold continuePass; split
  · rfl
  · exact beginPass_eq s

theorem tickStep_eq (s : State) :
    tickStep s = { s with
      active := (tickStep s).active
      pending := (tickStep s).pending
      swapped := (tickStep s).swapped
      shift := (tickStep s).shift
      latch := (tickStep s).latch
      strobes := (tickStep s).strobes
      tick := s.tick + 1#32 } := by
  unfold tickStep shiftTick latchTick; dsimp only; split
  · rfl
  · split <;> rfl

@[simp] theorem bank_false (s : State) : s.bank false = s.bank0 := rfl
@[simp] theorem bank_true (s : State) : s.bank true = s.bank1 := rfl

theorem setBank_same (k : Bool) (b : Bank) (s : State) : (setBank k b s).bank k = b := by
  cases k <;> rfl

theorem setBank_other (k : Bool) (b : Bank) (s : State) :
    (setBank (!k) b s).bank k = s.bank k := by
  cases k <;> rfl

theorem setThread_same (t : Fin 3) (th : Thread) (s : State) :
    (setThread t th s).threads[t] = th := by simp [setThread]

theorem setThread_other (t i : Fin 3) (th : Thread) (s : State) (h : i ≠ t) :
    (setThread t th s).threads[i] = s.threads[i] := by
  simp only [setThread, Fin.getElem_fin, Vector.getElem_set]
  rw [if_neg fun e => h (Fin.ext e.symm)]

end Sys2Proof.Machine
end

