-- ==== Sys2Proof/Laws/Ops.lean ====
section
/-! SUPPORT. What the shared operations of Machine/Ops.lean answer with, in numbers. -/

namespace Sys2Proof.Machine

theorem raiseFault_recorded (c : FaultCode) (w : Word) (s : State) :
    State.FaultRecorded (faultByte c) w s (raiseFault c w s) := raiseFault_eq c w s

theorem satsub_toNat (a b : Word) : (satsub a b).toNat = a.toNat - b.toNat := by
  unfold satsub; split
  · rename_i h; rw [BitVec.toNat_sub_of_le h]
  · rename_i h
    have : ¬ b.toNat ≤ a.toNat := h
    simp; omega

theorem wordMin_spec (a b : Word) :
    wordMin a b ≤ a ∧ wordMin a b ≤ b ∧ (wordMin a b = a ∨ wordMin a b = b) := by
  unfold wordMin; split
  · exact ⟨BitVec.le_refl _, by assumption, Or.inl rfl⟩
  · rename_i h
    refine ⟨?_, BitVec.le_refl _, Or.inr rfl⟩
    have : ¬ a.toNat ≤ b.toNat := h
    show b.toNat ≤ a.toNat
    omega

theorem word_le_zero {a : Word} (h : a ≤ 0#32) : a = 0#32 := by
  have : a.toNat ≤ 0 := h
  apply BitVec.eq_of_toNat_eq; simp; omega

/-- The bus layout as a number (spec/60_exceptions.md R223). -/
theorem busInfo_eq (w : Bool) (z : AccessSize) (off : Nat) (h : off < 4096) :
    busInfo w z off = BitVec.ofNat 32 (off + 4096 * sizeBytes z + 65536 * w.toNat) := by
  apply BitVec.eq_of_toNat_eq
  have hz : sizeBytes z < 16 := by cases z <;> decide
  have hw := w.toNat_le
  simp only [busInfo, BitVec.toNat_append, BitVec.toNat_ofNat, BitVec.toNat_ofBool,
    Nat.shiftLeft_eq]
  rw [Nat.mod_eq_of_lt (a := off) (by omega), Nat.mod_eq_of_lt (a := sizeBytes z) (by omega),
    Nat.mod_eq_of_lt (by omega)]
  simp only [Nat.zero_mul, Nat.zero_or]
  rw [← Nat.shiftLeft_eq, ← Nat.shiftLeft_eq, ← Nat.shiftLeft_add_eq_or_of_lt (by omega),
    ← Nat.shiftLeft_add_eq_or_of_lt (by omega)]
  simp only [Nat.shiftLeft_eq]; omega

theorem getLsbD_eq_decide (v : Word) (n : Nat) :
    v.getLsbD n = decide (v.toNat / 2 ^ n % 2 = 1) := by
  simp [BitVec.getLsbD, Nat.testBit, Nat.shiftRight_eq_div_pow]
  rfl

/-- The reserved high bits of a value are 0 exactly when the value is small. -/
theorem high_bits_zero (v : Word) (n : Nat) (h : n ≤ 32) :
    v.extractLsb' n (32 - n) = 0#(32 - n) ↔ v.toNat < 2 ^ n := by
  rw [BitVec.toNat_eq, BitVec.extractLsb'_toNat, Nat.shiftRight_eq_div_pow]
  have : v.toNat / 2 ^ n < 2 ^ (32 - n) := by
    rw [Nat.div_lt_iff_lt_mul (by positivity), ← Nat.pow_add, Nat.sub_add_cancel h]; exact v.isLt
  rw [Nat.mod_eq_of_lt this]
  simp [Nat.div_eq_zero_iff]

/-- The bits 40..63 of a frame, one by one. -/
theorem frame_clean_iff (f : Frame) :
    f.extractLsb' 40 24 = 0#24 ↔ ∀ i, 40 ≤ i → i < 64 → f.getLsbD i = false := by
  constructor
  · intro h i h1 h2
    have := congrArg (fun x => x.getLsbD (i - 40)) h
    simp only [BitVec.getLsbD_extractLsb'] at this
    rw [show 40 + (i - 40) = i by omega] at this
    simpa [show i - 40 < 24 by omega] using this
  · intro h
    apply BitVec.eq_of_getLsbD_eq
    intro i hi
    rw [BitVec.getLsbD_extractLsb', h _ (by omega) (by omega)]; simp

theorem frame_clean_lt (f : Frame) (h : f.extractLsb' 40 24 = 0#24) : f.toNat < 2 ^ 40 := by
  have := congrArg BitVec.toNat h
  simp [Nat.shiftRight_eq_div_pow] at this
  have := f.isLt
  omega

end Sys2Proof.Machine
end

