-- ==== Sys2Proof/Laws/Operands.lean ====
section
/-! SUPPORT. The register window: an offset names at most one register, every register has its offset, and
which accesses are admitted; with one equation for each register whose write checks a range. -/

namespace Sys2Proof.Machine

@[simp] theorem regOf_regOffset (r : Reg) : regOf (regOffset r) = some r := by
  cases r
  case threadRem t => revert t; decide
  case threadFn t => revert t; decide
  case br i => revert i; decide
  case lut b => revert b; decide
  case bank k p hi => revert p; cases k <;> cases hi <;> decide
  all_goals decide

theorem eq_regOffset_of_regOf {off : Nat} {r : Reg} (h : regOf off = some r) :
    off = regOffset r := by
  unfold regOf at h
  split at h
  · cases h
  split at h
  · have : off / 4 < 15 := by omega
    have e : off = 4 * (off / 4) := by omega
    generalize off / 4 = w at *
    interval_cases w <;>
      (simp only [controlReg, Option.some.injEq] at h; subst h; simpa [regOffset] using e)
  repeat' split at h
  all_goals first
    | (cases h; done)
    | (simp only [Option.some.injEq] at h; subst h; simp only [regOffset]; first | omega | skip)
  have e1 : (decide (2560 ≤ off)).toNat = if 2560 ≤ off then 1 else 0 := by split <;> simp [*]
  have e2 : (decide (off % 8 = 4)).toNat = if off % 8 = 4 then 1 else 0 := by split <;> simp [*]
  rw [e1, e2]; split <;> split <;> omega

theorem regOffset_lt (r : Reg) : regOffset r < 4096 := by
  cases r <;> simp only [regOffset] <;> try omega
  rename_i k p hi
  have := k.toNat_le
  have := hi.toNat_le
  omega

theorem regOffset_aligned (r : Reg) : regOffset r % 4 = 0 := by
  cases r <;> simp only [regOffset] <;> omega

@[simp] theorem admitted_regOffset (r : Reg) : admitted .four (regOffset r) = some r := by
  simp [admitted]

theorem admitted_eq_some {z : AccessSize} {off : Nat} {r : Reg} (h : admitted z off = some r) :
    z = .four ∧ off = regOffset r := by
  unfold admitted at h; split at h
  · exact ⟨by assumption, eq_regOffset_of_regOf h⟩
  · cases h

/-- What a refused write at a mapped register records. -/
theorem refuseWrite_recorded (c : FaultCode) (r : Reg) (s : State) :
    ∃ t, refuseWrite c r s = .next t ∧
      State.FaultRecorded (faultByte c) (BitVec.ofNat 32 (regOffset r + 0x14000)) s t := by
  refine ⟨_, rfl, ?_⟩
  have := raiseFault_recorded c (busInfo true .four (regOffset r)) s
  rw [busInfo_eq _ _ _ (regOffset_lt r)] at *
  simpa [sizeBytes, Nat.add_assoc] using this

theorem writeReg_readOnly {r : Reg} (h : readOnly r = true) (v : Word) (s : State) :
    writeReg v r s = refuseWrite .roWrite r s := by
  simp only [writeReg, h, if_true]

theorem writeReg_cmd (v : Word) (s : State) : writeReg v .cmd s = execCommandWord v s := rfl

theorem writeReg_ctrl (v : Word) (s : State) :
    writeReg v .ctrl s =
      if v.extractLsb' 2 30 ≠ 0#30 then refuseWrite .valueRange .ctrl s
      else .next { s with ieSwap := v.getLsbD 0, ieFault := v.getLsbD 1 } := rfl

theorem writeReg_subsetHi (v : Word) (s : State) :
    writeReg v .subsetHi s =
      if v.extractLsb' 8 24 ≠ 0#24 then refuseWrite .valueRange .subsetHi s
      else .next { s with subset := v.extractLsb' 0 8 ++ s.subset.extractLsb' 0 32 } := rfl

theorem writeReg_br (v : Word) (i : Fin 40) (s : State) :
    writeReg v (.br i) s =
      if v.extractLsb' 6 26 ≠ 0#26 then refuseWrite .valueRange (.br i) s
      else .next { s with br := s.br.set i.val (v.extractLsb' 0 6) i.isLt } := rfl

end Sys2Proof.Machine
end

