-- ==== Sys2Proof/Laws/Exec.lean ====
section
/-! SUPPORT. What an instruction and what a step can do, said once: every next state is one of the shapes
of `HostEffect`, each with the guard under which the instruction has it. -/

namespace Sys2Proof.Machine

/-- The instruction i performs the command c, itself or as the WRITE of its word to `CMD`. -/
def Issues (i c : Instr) : Prop :=
  i = c ∨ ∃ w, i = .write .four 0x00C w ∧ decodeCommand w = some c

/-- The states an instruction can lead to. -/
inductive HostEffect (i : Instr) (s : State) : State → Prop
  | fault (c : FaultCode) (w : Word) : HostEffect i s (raiseFault c w s)
  | readFault (z : AccessSize) (o : Nat) (w : Word) (hi : i = .read z o) :
      HostEffect i s { raiseFault .badAccess w s with rdata := 0#32 }
  | read (v : Word) : HostEffect i s { s with rdata := v }
  | unchanged : HostEffect i s s
  | ctrl (a b : Bool) : HostEffect i s { s with ieSwap := a, ieFault := b }
  | ack : HostEffect i s { s with swapped := false }
  | data (v : Word) : HostEffect i s { s with data := v }
  | subset (v : BitVec 40) : HostEffect i s { s with subset := v }
  | br (v : Vector (BitVec 6) 40) : HostEffect i s { s with br := v }
  | render (hc : Issues i .render) (hp : s.pending = false) :
      HostEffect i s (setBank (!s.active) (Vector.ofFn fun p => renderFrame s p) s)
  | renderList (hc : Issues i .renderList) (hp : s.pending = false) :
      HostEffect i s (setBank (!s.active)
        (Vector.ofFn fun p => renderListFrame s p (s.bank (!s.active))[p]) s)
  | arm (hc : Issues i .armSwap) (hp : s.pending = false) :
      HostEffect i s { s with target := s.data, pending := true }
  | schedInit (hc : Issues i .schedInit) (hb : s.busy = false) :
      HostEffect i s { s with
        threads := Vector.ofFn fun t => ⟨s.cfg.initFn[t], true, initDelay[t]⟩
        last := 0#32
        due := 0#3
        cur := 0
        sinit := true }
  | schedStep (hc : Issues i .schedStep) (hi : s.sinit = true) (hb : s.busy = false) :
      HostEffect i s (beginPass (subtractElapsed s))
  | schedRet (f : Byte) (hc : Issues i (.schedRet f)) (hb : s.busy = true) :
      HostEffect i s (continuePass (recordReturn f s))

theorem command_effect {i j : Instr} {s t : State} (hj : Issues j i) (hc : i.isCommand = true)
    (h : exec i s = .next t) : HostEffect j s t := by
  cases i <;> simp only [Instr.isCommand, Bool.false_eq_true] at hc
  · cases h; exact .unchanged
  · simp only [exec, execRender] at h; split at h <;> cases h
    · exact .fault _ _
    · exact .render hj (by simp_all)
  · simp only [exec, execRenderList] at h; split at h <;> cases h
    · exact .fault _ _
    · exact .renderList hj (by simp_all)
  · simp only [exec, execArmSwap] at h; split at h <;> cases h
    · exact .fault _ _
    · exact .arm hj (by simp_all)
  · simp only [exec, execSchedInit] at h; split at h <;> cases h
    · exact .fault _ _
    · exact .schedInit hj (by simp_all)
  · simp only [exec, execSchedStep] at h; split at h <;> cases h
    · exact .fault _ _
    · exact .schedStep hj (by simp_all) (by simp_all)
  · simp only [exec, execSchedRet] at h; split at h <;> cases h
    · exact .schedRet _ hj (by simp_all)
    · exact .fault _ _

/-- A command word is a command or records `ILLEGAL_CMD`. -/
theorem execCommandWord_cases (w : Word) (s : State) :
    (∃ i, decodeCommand w = some i ∧ i.isCommand = true ∧ execCommandWord w s = exec i s) ∨
    (decodeCommand w = none ∧ execCommandWord w s = .next (raiseFault .illegalCmd w s)) := by
  cases h : decodeCommand w with
  | none => right; simp [execCommandWord, h]
  | some i =>
    have hc := decodeCommand_isCommand h
    left; refine ⟨i, rfl, hc, ?_⟩
    unfold execCommandWord; rw [h]
    cases i <;> first | rfl | (simp [Instr.isCommand] at hc)

theorem writeReg_effect {v : Word} {r : Reg} {s t : State} (h : writeReg v r s = .next t) :
    HostEffect (.write .four (regOffset r) v) s t := by
  unfold writeReg at h
  split at h
  · cases h; exact .fault _ _
  · split at h
    · split at h <;> cases h
      · exact .fault _ _
      · exact .ctrl _ _
    · cases h; unfold acknowledge; split
      · exact .ack
      · exact .unchanged
    · rcases execCommandWord_cases v s with ⟨i, hd, hc, he⟩ | ⟨_, he⟩
      · exact command_effect (Or.inr ⟨v, rfl, hd⟩) hc (he ▸ h)
      · rw [he] at h; cases h; exact .fault _ _
    · cases h; exact .data _
    · cases h; exact .subset _
    · split at h <;> cases h
      · exact .fault _ _
      · exact .subset _
    · split at h <;> cases h
      · exact .fault _ _
      · exact .br _
    · cases h; exact .fault _ _

/-- Everything an instruction can do. -/
theorem exec_effect {i : Instr} {s t : State} (h : exec i s = .next t) : HostEffect i s t := by
  by_cases hc : i.isCommand = true
  · exact command_effect (Or.inl rfl) hc h
  cases i <;> simp [Instr.isCommand] at hc
  · simp only [exec, execRead] at h; split at h <;> cases h
    · exact .read _
    · exact .readFault _ _ _ rfl
  · simp only [exec, execWrite] at h; split at h
    · rename_i r hr
      obtain ⟨rfl, rfl⟩ : _ ∧ _ := admitted_eq_some hr
      exact writeReg_effect h
    · cases h; exact .fault _ _

/-- Taking an event changes nothing but which events are still to come. -/
theorem nextEvent_eq (s : State) :
    (nextEvent s).2 =
      { s with inputs := (nextEvent s).2.inputs, rounds := (nextEvent s).2.rounds } := by
  unfold nextEvent
  cases s.inputs with
  | cons e rest => rfl
  | nil => cases hostRound s <;> rfl

/-- Everything a step can do: a tick, a host operation or power-on, of the state that the event leaves. -/
theorem step_cases {s t : State} (h : step s = .next t) :
    ∃ q k,
      ((nextEvent s).1 = .tick ∧ t = tickStep { s with inputs := q, rounds := k }) ∨
      (∃ d v, (nextEvent s).1 = .access d v ∧
        HostEffect (decodeBus d v) { s with inputs := q, rounds := k } t) ∨
      ((nextEvent s).1 = .powerOn ∧ t = powerOn { s with inputs := q, rounds := k }) := by
  refine ⟨(nextEvent s).2.inputs, (nextEvent s).2.rounds, ?_⟩
  rw [← nextEvent_eq]
  unfold step at h
  generalize nextEvent s = p at h ⊢
  obtain ⟨e, s'⟩ := p
  cases e with
  | tick => cases h; exact .inl ⟨rfl, rfl⟩
  | access d v => exact .inr (.inl ⟨d, v, rfl, exec_effect h⟩)
  | powerOn => cases h; exact .inr (.inr ⟨rfl, rfl⟩)

/-- One step more, at the end of a run. -/
theorem steps_succ {n : Nat} {s t u : State} (h : steps n s = some t) (hs : step t = .next u) :
    steps (n + 1) s = some u := by
  induction n generalizing s with
  | zero => cases h; simp [steps, hs]
  | succ n ih =>
    rw [steps] at h ⊢
    cases he : step s with
    | next v => rw [he] at h; exact ih h
    | fault r => rw [he] at h; cases h
    | refused r => rw [he] at h; cases h

/-- A run in two parts. -/
theorem steps_add (m n : Nat) (s : State) : steps (m + n) s = (steps m s).bind (steps n) := by
  induction m generalizing s with
  | zero => simp [steps]
  | succ m ih =>
    rw [Nat.add_right_comm, steps, steps]
    cases step s with
    | next t => exact ih t
    | fault r => rfl
    | refused r => rfl

end Sys2Proof.Machine
end

