-- ==== Sys2Proof/Laws/Swap.lean ====
section
/-! SUPPORT. One tick and many: the counter, the swap test in numbers, what ticks leave alone, and when a
pending swap waits and when it is performed. -/

namespace Sys2Proof.Machine

theorem tick_odd (s : State) : s.tick.getLsbD 0 = decide (s.tick.toNat % 2 = 1) := by
  rw [getLsbD_eq_decide]; simp

theorem phase_val (s : State) : (phase s).val = s.tick.toNat / 2 % 64 := by
  simp [phase, Nat.shiftRight_eq_div_pow]

theorem lag_eq (s : State) :
    lag s = (s.tick.toNat + 2 ^ 32 - s.target.toNat) % 2 ^ 32 := by
  simp [lag, BitVec.toNat_sub]
  have := s.target.isLt
  have := s.tick.isLt
  congr 1; omega

theorem swapNow_iff (s : State) :
    swapNow s = true ↔ s.tick.toNat / 2 % 64 = 0 ∧ s.pending = true ∧
      (s.tick.toNat + 2 ^ 32 - s.target.toNat) % 2 ^ 32 < s.cfg.lagWindow := by
  simp [swapNow, lag_eq, Fin.ext_iff, phase_val, and_assoc]

/-- The swap's fields after a tick: the swap is performed, or all three are as before. -/
theorem tickStep_swap (s : State) :
    (s.tick.getLsbD 0 = false ∧ swapNow s = true ∧ (tickStep s).active = !s.active ∧
      (tickStep s).pending = false ∧ (tickStep s).swapped = true) ∨
    (¬(s.tick.getLsbD 0 = false ∧ swapNow s = true) ∧ (tickStep s).active = s.active ∧
      (tickStep s).pending = s.pending ∧ (tickStep s).swapped = s.swapped) := by
  unfold tickStep shiftTick latchTick swapBanks; dsimp only
  cases h : s.tick.getLsbD 0 <;> cases h2 : swapNow s <;> simp

@[simp] theorem bank_tickStep (s : State) (k : Bool) : (tickStep s).bank k = s.bank k := by
  rw [tickStep_eq]; rfl

theorem ticks_succ (n : Nat) (s : State) : ticks (n + 1) s = tickStep (ticks n s) := by
  induction n generalizing s with
  | zero => rfl
  | succ n ih => rw [ticks, ih]; rfl

theorem ticks_add (a b : Nat) (s : State) : ticks (a + b) s = ticks b (ticks a s) := by
  induction a generalizing s with
  | zero => simp [ticks]
  | succ a ih => rw [Nat.add_right_comm, ticks, ih]; rfl

/-- What no number of ticks changes. -/
theorem ticks_eq (n : Nat) (s : State) :
    ticks n s = { s with
      active := (ticks n s).active
      pending := (ticks n s).pending
      swapped := (ticks n s).swapped
      shift := (ticks n s).shift
      latch := (ticks n s).latch
      strobes := (ticks n s).strobes
      tick := s.tick + BitVec.ofNat 32 n } := by
  induction n with
  | zero => simp [ticks]
  | succ n ih =>
    rw [ticks_succ, tickStep_eq, ih]
    have : s.tick + BitVec.ofNat 32 n + 1#32 = s.tick + BitVec.ofNat 32 (n + 1) := by
      apply BitVec.eq_of_toNat_eq; simp; omega
    simp only [this]

theorem ticks_tick (n : Nat) (s : State) :
    (ticks n s).tick.toNat = (s.tick.toNat + n) % 2 ^ 32 := by
  rw [ticks_eq]; simp

@[simp] theorem bank_ticks (n : Nat) (s : State) (k : Bool) : (ticks n s).bank k = s.bank k := by
  rw [ticks_eq]; rfl

/-- A swap stays pending over ticks none of which begins a cycle inside the lag window. -/
theorem ticks_wait (s : State) (n : Nat) (hp : s.pending = true)
    (h : ∀ j < n, (s.tick.toNat + j) % 128 = 0 →
      s.cfg.lagWindow ≤ ((s.tick.toNat + j) + 2 ^ 32 - s.target.toNat) % 2 ^ 32) :
    (ticks n s).pending = true ∧ (ticks n s).active = s.active := by
  induction n with
  | zero => exact ⟨hp, rfl⟩
  | succ n ih =>
    obtain ⟨a, b⟩ := ih (fun j hj => h j (by omega))
    rw [ticks_succ]
    rcases tickStep_swap (ticks n s) with ⟨h1, h2, _⟩ | ⟨_, h1, h2, _⟩
    · exfalso
      have hh := (swapNow_iff _).1 h2
      rw [tick_odd] at h1
      have e1 : (ticks n s).target = s.target := by rw [ticks_eq]
      have e2 : (ticks n s).cfg = s.cfg := by rw [ticks_eq]
      simp only [ticks_tick, e1, e2, decide_eq_false_iff_not] at hh h1
      have := h n (by omega) (by omega)
      have := s.target.isLt
      omega
    · exact ⟨h2.trans a, h1.trans b⟩

/-- A pending swap is performed by a tick that begins a cycle inside the lag window. -/
theorem ticks_swap (s : State) (n : Nat) (hp : (ticks n s).pending = true)
    (ha : (ticks n s).active = s.active) (h : (s.tick.toNat + n) % 128 = 0)
    (hl : ((s.tick.toNat + n) + 2 ^ 32 - s.target.toNat) % 2 ^ 32 < s.cfg.lagWindow) :
    (ticks (n + 1) s).active = !s.active ∧ (ticks (n + 1) s).pending = false ∧
      (ticks (n + 1) s).swapped = true := by
  rw [ticks_succ]
  rcases tickStep_swap (ticks n s) with ⟨h1, h2, h3, h4, h5⟩ | ⟨h0, _⟩
  · exact ⟨by rw [h3, ha], h4, h5⟩
  · exfalso; apply h0
    have e1 : (ticks n s).target = s.target := by rw [ticks_eq]
    have e2 : (ticks n s).cfg = s.cfg := by rw [ticks_eq]
    rw [tick_odd, swapNow_iff]
    simp only [ticks_tick, e1, e2, decide_eq_false_iff_not]
    have := s.target.isLt
    refine ⟨by omega, by omega, hp, by omega⟩

end Sys2Proof.Machine
end

