-- ==== Sys2Proof/Laws/HostSide.lean ====
section
/-! SUPPORT. The host's sequences: accesses one after another with ticks between them, what an effect does
to the scheduler's part of the state, the poll and the call it answers, and the polls of `waitswap`. -/

namespace Sys2Proof.Machine

theorem runAll_append (l m : List Instr) (s t : State) (h : runAll l s = .next t) :
    runAll (l ++ m) s = runAll m t := by
  induction l generalizing s with
  | nil => cases h; rfl
  | cons i l ih =>
    simp only [List.cons_append, runAll] at h ⊢
    cases he : exec i s with
    | next u => rw [he] at h; exact ih u h
    | fault r => rw [he] at h; cases h
    | refused r => rw [he] at h; cases h

theorem execWrite_regOffset (r : Reg) (v : Word) (s : State) :
    execWrite .four (regOffset r) v s = writeReg v r s := by
  simp only [execWrite, admitted_regOffset]

/-- A brightness of 0..63 is in range. -/
theorem writeReg_brightness (i : Fin 40) (v : BitVec 6) (s : State) :
    writeReg (v.setWidth 32) (.br i) s = .next { s with br := s.br.set i.val v i.isLt } := by
  have hv := v.isLt
  have h0 : (v.setWidth 32 : Word).extractLsb' 6 26 = 0#26 :=
    (high_bits_zero _ 6 (by omega)).2 (by simp; omega)
  have h1 : (v.setWidth 32 : Word).extractLsb' 0 6 = v := by
    apply BitVec.eq_of_toNat_eq; simp; omega
  rw [writeReg_br, if_neg (by simp [h0]), h1]

theorem tickStep_rdata (s : State) (v : Word) :
    tickStep { s with rdata := v } = { tickStep s with rdata := v } := by
  have h : swapNow { s with rdata := v } = swapNow s := rfl
  unfold tickStep shiftTick latchTick
  rw [h]
  by_cases h1 : s.tick.getLsbD 0 = true
  · simp only [h1, if_true]
  · by_cases h2 : swapNow s = true
    · simp only [h1, h2, if_true, Bool.false_eq_true, if_false]; rfl
    · simp only [h1, h2, Bool.false_eq_true, if_false]; rfl

theorem ticks_rdata (n : Nat) (s : State) (v : Word) :
    ticks n { s with rdata := v } = { ticks n s with rdata := v } := by
  induction n generalizing s with
  | zero => rfl
  | succ n ih => rw [ticks, ticks, tickStep_rdata, ih]

/-! One access and several -/

theorem exec_rd (r : Reg) (s : State) : exec (rd r) s = .next { s with rdata := readReg s r } := by
  simp only [exec, rd, execRead, admitted_regOffset]

theorem exec_wr (r : Reg) (v : Word) (s : State) : exec (wr r v) s = writeReg v r s :=
  execWrite_regOffset r v s

theorem hostAccess_eq {gap : Nat → Nat} {i : Instr} {h : HostRun} {t : State}
    (he : exec i (ticks (gap h.made) h.state) = .next t) :
    hostAccess gap i h = some ⟨t, h.made + 1⟩ := by
  simp only [hostAccess, he]

/-- A READ of a program returns the register after the ticks that fall before it. -/
theorem hostAccess_rd (gap : Nat → Nat) (r : Reg) (h : HostRun) :
    hostAccess gap (rd r) h =
      some ⟨{ ticks (gap h.made) h.state with rdata := readReg (ticks (gap h.made) h.state) r },
        h.made + 1⟩ :=
  hostAccess_eq (exec_rd r _)

theorem hostAccesses_append (gap : Nat → Nat) (l m : List Instr) (h : HostRun) :
    hostAccesses gap (l ++ m) h = (hostAccesses gap l h).bind (hostAccesses gap m) := by
  induction l generalizing h with
  | nil => rfl
  | cons i l ih =>
    simp only [List.cons_append, hostAccesses]
    cases hostAccess gap i h with
    | none => rfl
    | some h' => exact ih h'

theorem ticks_keep {P : State → Prop} (ht : ∀ s, P s → P (tickStep s)) (n : Nat) {s : State}
    (hs : P s) : P (ticks n s) := by
  induction n generalizing s with
  | zero => exact hs
  | succ n ih => exact ih (ht s hs)

/-- What every tick and every access of a sequence keeps holds after the sequence, which is completed. -/
theorem hostAccesses_keep {P : State → Prop} {l : List Instr} (ht : ∀ s, P s → P (tickStep s))
    (hi : ∀ i ∈ l, ∀ s, P s → ∃ t, exec i s = .next t ∧ P t) (gap : Nat → Nat) {h : HostRun}
    (hP : P h.state) : ∃ h', hostAccesses gap l h = some h' ∧ P h'.state := by
  induction l generalizing h with
  | nil => exact ⟨h, rfl, hP⟩
  | cons i l ih =>
    obtain ⟨t, he, hPt⟩ := hi i (by simp) _ (ticks_keep ht (gap h.made) hP)
    obtain ⟨h', h1, h2⟩ :=
      ih (fun j hj => hi j (by simp [hj])) (h := ⟨t, h.made + 1⟩) hPt
    exact ⟨h', by rw [hostAccesses, hostAccess_eq he]; exact h1, h2⟩

/-! The scheduler's part of the state -/

/-- What the scheduler unit works on, and the brightness its effects write. -/
structure SchedPart where
  threads : Vector Thread 3
  sinit : Bool
  busy : Bool
  due : BitVec 3
  cur : Fin 3
  last : Word
  br : Vector (BitVec 6) 40

def State.sched (s : State) : SchedPart :=
  ⟨s.threads, s.sinit, s.busy, s.due, s.cur, s.last, s.br⟩

@[simp] theorem tickStep_sched (s : State) : (tickStep s).sched = s.sched := by
  rw [tickStep_eq]; rfl

@[simp] theorem ticks_sched (n : Nat) (s : State) : (ticks n s).sched = s.sched := by
  rw [ticks_eq]; rfl

@[simp] theorem rdata_sched (s : State) (v : Word) :
    State.sched { s with rdata := v } = s.sched := rfl

@[simp] theorem raiseFault_sched (c : FaultCode) (w : Word) (s : State) :
    (raiseFault c w s).sched = s.sched := by
  simp [State.sched]

@[simp] theorem setBank_sched (k : Bool) (b : Bank) (s : State) : (setBank k b s).sched = s.sched := by
  simp [State.sched]

/-- SCHED_RET looks at the scheduler's part and at `DATA` only. -/
theorem continuePass_sched {s t : State} (h : s.sched = t.sched) (hd : s.data = t.data) (f : Byte) :
    (continuePass (recordReturn f s)).sched = (continuePass (recordReturn f t)).sched := by
  cases s; cases t
  simp only [State.sched, SchedPart.mk.injEq] at h hd
  obtain ⟨rfl, rfl, rfl, rfl, rfl, rfl, rfl⟩ := h
  subst hd
  unfold continuePass beginPass recordReturn returnedThread setThread State.sched minRem zeroRem
  dsimp only
  split <;> [rfl; split <;> rfl]

/-! The accesses of an effect -/

theorem exec_setbr (i : Fin 40) (v : BitVec 6) (s : State) :
    exec (wr (.br i) (v.setWidth 32)) s = .next { s with br := s.br.set i.val v i.isLt } := by
  rw [exec_wr, writeReg_brightness]

theorem exec_wrCommand {c : Instr} (hc : c.isCommand = true) (s : State) :
    exec (wrCommand c) s = exec c s := by
  rw [wrCommand, exec_wr, writeReg_cmd]
  cases c <;> first | (simp [Instr.isCommand] at hc; done) | skip
  all_goals simp only [execCommandWord, decodeCommand_commandWord hc, exec]

/-- RENDER, RENDER_LIST, ARM_SWAP and the writes of their operands leave the scheduler's part alone. -/
theorem exec_keeps_sched {i : Instr} (hi : i = wrCommand .render ∨ i = wrCommand .renderList ∨
    i = wrCommand .armSwap ∨ (∃ v, i = wr .data v) ∨ (∃ v, i = wr .subsetLo v) ∨
    ∃ v, i = wr .subsetHi v) (s : State) : ∃ t, exec i s = .next t ∧ t.sched = s.sched := by
  rcases hi with rfl | rfl | rfl | ⟨v, rfl⟩ | ⟨v, rfl⟩ | ⟨v, rfl⟩
  · rw [exec_wrCommand rfl]; simp only [exec, execRender]; split <;> exact ⟨_, rfl, by simp⟩
  · rw [exec_wrCommand rfl]; simp only [exec, execRenderList]; split <;> exact ⟨_, rfl, by simp⟩
  · rw [exec_wrCommand rfl]; simp only [exec, execArmSwap]; split
    · exact ⟨_, rfl, by simp⟩
    · exact ⟨_, rfl, rfl⟩
  · exact ⟨_, exec_wr _ _ _, rfl⟩
  · exact ⟨_, exec_wr _ _ _, rfl⟩
  · rw [exec_wr, writeReg_subsetHi]; split
    · exact ⟨_, rfl, by simp⟩
    · exact ⟨_, rfl, rfl⟩

/-- An action is completed, whether it faults or not, and all it does to the scheduler's part is to write
brightness. -/
theorem action_sched (gap : Nat → Nat) (a : EffectAction) (h : HostRun) :
    ∃ h', hostAccesses gap a.accesses h = some h' ∧
      h'.state.sched = { h.state.sched with br := brightnessAfter [a] h.state.br } := by
  cases a with
  | setbr i v =>
    refine ⟨⟨{ ticks (gap h.made) h.state with
      br := (ticks (gap h.made) h.state).br.set i.val v i.isLt }, h.made + 1⟩, ?_, ?_⟩
    · simp only [EffectAction.accesses, pseudoSetbr, hostAccesses,
        hostAccess_eq (exec_setbr i v _), Option.bind_some]
    · have e := ticks_sched (gap h.made) h.state
      simp only [State.sched, SchedPart.mk.injEq] at e ⊢
      simp [brightnessAfter, e]
  | render =>
    exact hostAccesses_keep (P := fun t => t.sched = h.state.sched) (fun s hs => by simp [hs])
      (fun i hi s hs => by
        obtain ⟨t, h1, h2⟩ := exec_keeps_sched (i := i) (by
          simp [EffectAction.accesses] at hi; simp [hi]) s
        exact ⟨t, h1, h2.trans hs⟩) gap rfl
  | renderList m =>
    exact hostAccesses_keep (P := fun t => t.sched = h.state.sched) (fun s hs => by simp [hs])
      (fun i hi s hs => by
        obtain ⟨t, h1, h2⟩ := exec_keeps_sched (i := i) (by
          simp [EffectAction.accesses, pseudoRenderList, pseudoSubset] at hi
          rcases hi with rfl | rfl | rfl <;> simp) s
        exact ⟨t, h1, h2.trans hs⟩) gap rfl
  | arm g =>
    exact hostAccesses_keep (P := fun t => t.sched = h.state.sched) (fun s hs => by simp [hs])
      (fun i hi s hs => by
        obtain ⟨t, h1, h2⟩ := exec_keeps_sched (i := i) (by
          simp [EffectAction.accesses, pseudoArm] at hi
          rcases hi with rfl | rfl <;> simp) s
        exact ⟨t, h1, h2.trans hs⟩) gap rfl

theorem brightnessAfter_cons (a : EffectAction) (l : List EffectAction)
    (br : Vector (BitVec 6) 40) :
    brightnessAfter (a :: l) br = brightnessAfter l (brightnessAfter [a] br) := by
  cases a <;> rfl

/-- The actions of an effect. -/
theorem actions_sched (gap : Nat → Nat) (l : List EffectAction) (h : HostRun) :
    ∃ h', hostAccesses gap (l.flatMap EffectAction.accesses) h = some h' ∧
      h'.state.sched = { h.state.sched with br := brightnessAfter l h.state.br } := by
  induction l generalizing h with
  | nil => exact ⟨h, rfl, rfl⟩
  | cons a l ih =>
    obtain ⟨h₁, e₁, s₁⟩ := action_sched gap a h
    obtain ⟨h₂, e₂, s₂⟩ := ih h₁
    refine ⟨h₂, by rw [List.flatMap_cons, hostAccesses_append, e₁]; exact e₂, ?_⟩
    have b : h₁.state.br = brightnessAfter [a] h.state.br := congrArg SchedPart.br s₁
    rw [s₂, s₁, b, brightnessAfter_cons a l]

/-- `ret`: the call returns, from the state after some ticks and with the delay in `DATA`. -/
theorem ret_sched (gap : Nat → Nat) (f : Byte) (d : Word) (h : HostRun)
    (hb : h.state.busy = true) :
    ∃ h', hostAccesses gap (pseudoRet f d) h = some h' ∧
      h'.state.sched = (continuePass (recordReturn f { h.state with data := d })).sched := by
  let u := ticks (gap (h.made + 1)) { ticks (gap h.made) h.state with data := d }
  have hu : u.sched = h.state.sched := by
    simp only [u, ticks_sched]
    exact ticks_sched (gap h.made) h.state
  have hd : u.data = d := by simp only [u]; rw [ticks_eq]
  have hub : u.busy = true := by rw [← hb]; exact congrArg SchedPart.busy hu
  have hx : exec (wrCommand (.schedRet f)) u = .next (continuePass (recordReturn f u)) := by
    rw [exec_wrCommand rfl]; simp only [exec, execSchedRet, if_pos hub]
  refine ⟨⟨_, h.made + 2⟩, ?_, continuePass_sched (t := { h.state with data := d }) hu hd f⟩
  rw [pseudoRet, hostAccesses, hostAccess_eq (t := { ticks (gap h.made) h.state with data := d })
    (by rw [exec_wr]; rfl)]
  simp only [Option.bind_some, hostAccesses]
  rw [hostAccess_eq (by exact hx)]; rfl

/-- The accesses for one effect call do to the scheduler's part what SCHED_RET does once the brightness is
written. -/
theorem effect_sched {σ : Type} (gap : Nat → Nat) (r : EffectReturn σ) (h : HostRun)
    (hb : h.state.busy = true) :
    ∃ h', hostAccesses gap (effectAccesses r) h = some h' ∧
      h'.state.sched = (continuePass (recordReturn r.fn { h.state with
        br := brightnessAfter r.actions h.state.br, data := r.delay })).sched := by
  obtain ⟨h₁, e₁, s₁⟩ := actions_sched gap r.actions h
  obtain ⟨h₂, e₂, s₂⟩ := ret_sched gap r.fn r.delay h₁
    (by rw [← hb]; exact congrArg SchedPart.busy s₁)
  refine ⟨h₂, by rw [effectAccesses, hostAccesses_append, e₁]; exact e₂, s₂.trans ?_⟩
  refine continuePass_sched ?_ ?_ _
  · simp only [State.sched, SchedPart.mk.injEq] at s₁ ⊢
    simp [s₁]
  · rfl

/-! The poll of the inner loop and the call it shows -/

theorem statusWord_busy (s : State) : (statusWord s).getLsbD 4 = s.busy := by
  unfold statusWord
  rw [BitVec.getLsbD_append, BitVec.getLsbD_append, BitVec.getLsbD_append, BitVec.getLsbD_append,
    BitVec.getLsbD_append]
  simp

theorem statusWord_pending (s : State) : (statusWord s).getLsbD 0 = s.pending := by
  unfold statusWord; rw [BitVec.getLsbD_append]; simp

/-- `CALL` shows the thread, the tag and the first flag of the outstanding call. -/
theorem callShown_callWord {s : State} (hb : s.busy = true) :
    callShown (callWord s) = ⟨s.cur, s.threads[s.cur].fn, s.threads[s.cur].first⟩ := by
  have hc := s.cur.isLt
  have e1 : (callWord s).extractLsb' 0 8 = s.threads[s.cur].fn := by
    rw [callWord, if_pos hb]
    apply BitVec.eq_of_getLsbD_eq
    intro i hi
    rw [BitVec.getLsbD_extractLsb', BitVec.getLsbD_append]
    simp [hi]
  have e2 : (callWord s).getLsbD 8 = s.threads[s.cur].first := by
    rw [callWord, if_pos hb, BitVec.getLsbD_append, BitVec.getLsbD_append]
    simp
  have e3 : (callWord s).extractLsb' 16 2 = BitVec.ofNat 2 s.cur.val := by
    rw [callWord, if_pos hb]
    apply BitVec.eq_of_getLsbD_eq
    intro i hi
    rw [BitVec.getLsbD_extractLsb', BitVec.getLsbD_append, BitVec.getLsbD_append,
      BitVec.getLsbD_append, BitVec.getLsbD_append, if_neg (by omega), if_neg (by omega),
      if_neg (by omega), if_pos (by omega), show 16 + i - 8 - 1 - 7 = i by omega]
    simp [hi]
  have e4 : (BitVec.ofNat 2 s.cur.val).toNat = s.cur.val := by simp; omega
  unfold callShown
  simp only [e1, e2, e3, e4, hc, dite_true]

/-- With no call outstanding the inner loop ends at its first poll. -/
theorem serveCalls_idle {σ : Type} (eff : Effects σ) (gap : Nat → Nat) (n : Nat) (h : HostRun) (x : σ)
    (calls : List EffectCall) (hb : h.state.busy = false) :
    ∃ h', h'.state.sched = h.state.sched ∧ serveCalls eff gap n h x calls = some (h', x, calls) := by
  refine ⟨⟨{ ticks (gap h.made) h.state with
    rdata := statusWord (ticks (gap h.made) h.state) }, h.made + 1⟩, by simp, ?_⟩
  have e : (statusWord (ticks (gap h.made) h.state)).getLsbD 4 = false := by
    rw [statusWord_busy, ticks_eq]; exact hb
  cases n <;>
    simp only [serveCalls, hostAccess_rd, readReg, e, Option.bind_some, Bool.false_eq_true, if_false]

/-- With one outstanding it serves the call, and needs one more than it has left for the rest. -/
theorem serveCalls_call {σ : Type} (eff : Effects σ) (gap : Nat → Nat) (h : HostRun) (x : σ)
    (calls : List EffectCall) (hb : h.state.busy = true) :
    let c : EffectCall :=
      ⟨h.state.cur, h.state.threads[h.state.cur].fn, h.state.threads[h.state.cur].first⟩
    ∃ h', h'.state.sched = (continuePass (recordReturn (eff c x).fn { h.state with
        br := brightnessAfter (eff c x).actions h.state.br, data := (eff c x).delay })).sched ∧
      serveCalls eff gap 0 h x calls = none ∧
      ∀ n, serveCalls eff gap (n + 1) h x calls
        = serveCalls eff gap n h' (eff c x).effects (calls ++ [c]) := by
  intro c
  let h₁ : HostRun := ⟨{ ticks (gap h.made) h.state with
    rdata := statusWord (ticks (gap h.made) h.state) }, h.made + 1⟩
  let h₂ : HostRun := ⟨{ ticks (gap h₁.made) h₁.state with
    rdata := callWord (ticks (gap h₁.made) h₁.state) }, h₁.made + 1⟩
  have s₁ : h₁.state.sched = h.state.sched := ticks_sched (gap h.made) h.state
  have s₂ : h₂.state.sched = h.state.sched := (ticks_sched (gap h₁.made) h₁.state).trans s₁
  have a₁ : hostAccess gap (rd .status) h = some h₁ := hostAccess_rd gap .status h
  have a₂ : hostAccess gap (rd .call) h₁ = some h₂ := hostAccess_rd gap .call h₁
  have b₁ : h₁.state.rdata.getLsbD 4 = true := by
    show (statusWord _).getLsbD 4 = true
    rw [statusWord_busy, ticks_eq]; exact hb
  have b₂ : h₂.state.busy = true := (congrArg SchedPart.busy s₂).trans hb
  have ec : callShown h₂.state.rdata = c := by
    show callShown (callWord _) = c
    rw [callShown_callWord (by rw [ticks_eq]; exact (congrArg SchedPart.busy s₁).trans hb)]
    simp only [c]
    have e := (ticks_sched (gap h₁.made) h₁.state).trans s₁
    simp only [State.sched, SchedPart.mk.injEq] at e
    obtain ⟨e1, _, _, _, e2, _, _⟩ := e
    simp only [e1, e2]
  obtain ⟨h', e, s'⟩ := effect_sched gap (eff c x) h₂ b₂
  refine ⟨h', s'.trans (continuePass_sched ?_ ?_ _), ?_, fun n => ?_⟩
  · have := s₂
    simp only [State.sched, SchedPart.mk.injEq] at this ⊢
    simp [this]
  · rfl
  · simp only [serveCalls, a₁, b₁, Option.bind_some, if_true]
  · simp only [serveCalls, a₁, b₁, a₂, ec, e, Option.bind_some, if_true]

/-! `waitswap` -/

/-- What `waitswap` ends with: the state after some ticks, with nothing pending, and the last `STATUS` that
was read. -/
theorem waitSwap_eq {gap : Nat → Nat} {n : Nat} {h h' : HostRun} (hw : waitSwap gap n h = some h') :
    ∃ k v, h'.state = { ticks k h.state with rdata := v } ∧ h'.state.pending = false := by
  induction n generalizing h with
  | zero => cases hw
  | succ n ih =>
    simp only [waitSwap, hostAccess_rd, Option.bind_some, readReg, statusWord_pending] at hw
    by_cases hp : (ticks (gap h.made) h.state).pending = true
    · rw [if_pos hp] at hw
      obtain ⟨k, v, e, hpt⟩ := ih hw
      exact ⟨gap h.made + k, v, by rw [e, ticks_rdata, ticks_add], hpt⟩
    · rw [if_neg hp, Option.some.injEq] at hw
      subst hw
      exact ⟨gap h.made, _, rfl, by simpa using hp⟩

/-- `waitswap` ends where ticks go on between the polls and nothing is pending any more after as many ticks
as it may poll. -/
theorem waitSwap_ends {gap : Nat → Nat} {n : Nat} {h : HostRun} (hg : ∀ j, 1 ≤ gap j) (hn : 0 < n)
    (hp : ∀ k, n ≤ k → (ticks k h.state).pending = false) : ∃ h', waitSwap gap n h = some h' := by
  induction n generalizing h with
  | zero => cases hn
  | succ n ih =>
    simp only [waitSwap, hostAccess_rd, Option.bind_some, readReg, statusWord_pending]
    split
    · rename_i hq
      apply ih
      · rcases Nat.eq_zero_or_pos n with rfl | h0
        · rw [hp _ (hg _)] at hq; cases hq
        · exact h0
      · intro k hk
        rw [ticks_rdata, ← ticks_add]
        exact hp _ (by have := hg h.made; omega)
    · exact ⟨_, rfl⟩

end Sys2Proof.Machine
end

