-- ==== Sys2Proof/Laws/PerInstr.lean ====
section
/-! SUPPORT. Statements made of every instruction as syntax, one lemma a constructor. -/

namespace Sys2Proof.Laws.EncodesInRow

/-- The words of an instruction satisfy `w AND mask = match` for its own row of spec/30_encoding.md
R105. -/
def Statement : Instr → Prop
  | .nop => ∀ w, encode .nop = .command w → w &&& 0xFFFFFFFF#32 = 0x00000000#32
  | .render => ∀ w, encode .render = .command w → w &&& 0xFFFFFFFF#32 = 0x01000000#32
  | .renderList => ∀ w, encode .renderList = .command w → w &&& 0xFFFFFFFF#32 = 0x02000000#32
  | .armSwap => ∀ w, encode .armSwap = .command w → w &&& 0xFFFFFFFF#32 = 0x10000000#32
  | .schedInit => ∀ w, encode .schedInit = .command w → w &&& 0xFFFFFFFF#32 = 0x20000000#32
  | .schedStep => ∀ w, encode .schedStep = .command w → w &&& 0xFFFFFFFF#32 = 0x21000000#32
  | .schedRet f => ∀ w, encode (.schedRet f) = .command w → w &&& 0xFFFFFF00#32 = 0x22000000#32
  | .read z o => ∀ d v, encode (.read z o) = .bus d v → d &&& 0x4000#15 = 0x0000#15
  | .write z o x => ∀ d v, encode (.write z o x) = .bus d v → d &&& 0x4000#15 = 0x4000#15

/-- Bit 14 alone decides the row of a descriptor. -/
theorem descriptor_row (d : Descriptor) :
    d &&& 0x4000#15 = if d.getLsbD 14 then 0x4000#15 else 0x0000#15 := by
  have l : ∀ i < 15, (0x4000#15).getLsbD i = decide (i = 14) := by decide
  apply BitVec.eq_of_getLsbD_eq
  intro i hi
  rw [BitVec.getLsbD_and, l i hi]
  by_cases h : i = 14
  · subst h; cases d.getLsbD 14 <;> simp
  · cases d.getLsbD 14 <;> simp [h, l i hi]

theorem nop : Statement .nop := by intro w h; cases h; decide
theorem render : Statement .render := by intro w h; cases h; decide
theorem renderList : Statement .renderList := by intro w h; cases h; decide
theorem armSwap : Statement .armSwap := by intro w h; cases h; decide
theorem schedInit : Statement .schedInit := by intro w h; cases h; decide
theorem schedStep : Statement .schedStep := by intro w h; cases h; decide

theorem schedRet (f : Byte) : Statement (.schedRet f) := by
  intro w h
  cases h
  rw [schedRet_row, schedRet_tag]

theorem read (size : AccessSize) (off : Nat) : Statement (.read size off) := by
  intro d v h
  cases h
  rw [descriptor_row, encodeBus, descriptor_kind]; rfl

theorem write (size : AccessSize) (off : Nat) (data : Word) :
    Statement (.write size off data) := by
  intro d v h
  cases h
  rw [descriptor_row, encodeBus, descriptor_kind]; rfl

end Sys2Proof.Laws.EncodesInRow
end

