-- ==== Sys2Proof/Laws/Renderer.lean ====
section
/-! SUPPORT. The bits of the frames that RENDER and RENDER_LIST write, and how many phases a pulse has. -/

namespace Sys2Proof.Machine

theorem renderFrame_bit (s : State) (p : Fin 64) (i : Nat) :
    (renderFrame s p).getLsbD i = if h : i < 40 then ledOn s ⟨i, h⟩ p else false := by
  unfold renderFrame
  rw [BitVec.getLsbD_ofFnLE]
  by_cases h : i < 64 <;> by_cases h2 : i < 40 <;> simp [h, h2]; omega

theorem renderListFrame_bit (s : State) (p : Fin 64) (old : Frame) (i : Nat) :
    (renderListFrame s p old).getLsbD i =
      if h : i < 40 then
        (if s.subset.getLsbD i then ledOn s ⟨i, h⟩ p else old.getLsbD i)
      else old.getLsbD i := by
  unfold renderListFrame
  rw [BitVec.getLsbD_ofFnLE]
  by_cases h : i < 64 <;> by_cases h2 : i < 40 <;> simp [h, h2]
  · omega
  · rw [BitVec.getLsbD_of_ge]; omega

theorem renderFrame_clean (s : State) (p : Fin 64) :
    (renderFrame s p).extractLsb' 40 24 = 0#24 := by
  rw [frame_clean_iff]
  intro i h1 h2
  rw [renderFrame_bit, dif_neg (by omega)]

theorem renderListFrame_clean (s : State) (p : Fin 64) (old : Frame)
    (h : old.extractLsb' 40 24 = 0#24) :
    (renderListFrame s p old).extractLsb' 40 24 = 0#24 := by
  rw [frame_clean_iff] at *
  intro i h1 h2
  rw [renderListFrame_bit, dif_neg (by omega), h i h1 h2]

theorem pulseLength_le (c : Config) (h : c.wf) (b : BitVec 6) : (pulseLength c b).toNat ≤ 64 :=
  h.1 b.toFin

theorem countP_lt (n : Nat) (h : n ≤ 64) :
    (List.finRange 64).countP (fun p => decide (p.val < n)) = n := by
  interval_cases n <;> decide +kernel

end Sys2Proof.Machine
end

