-- ==== Sys2Proof/Laws/Scheduler.lean ====
section
/-! SUPPORT. The scheduler's helpers: the least delay, the set of due threads and its least member, and
the two ways a pass goes on. -/

namespace Sys2Proof.Machine

/-- `minRem` is the minimum: a lower bound that is one of the delays. -/
theorem minRem_spec (s : State) :
    (∀ i : Fin 3, minRem s ≤ s.threads[i].rem) ∧ ∃ i : Fin 3, minRem s = s.threads[i].rem := by
  unfold minRem
  obtain ⟨a, b, c⟩ := wordMin_spec s.threads[1].rem s.threads[2].rem
  obtain ⟨a', b', c'⟩ :=
    wordMin_spec s.threads[0].rem (wordMin s.threads[1].rem s.threads[2].rem)
  constructor
  · intro i
    fin_cases i
    · exact a'
    · exact BitVec.le_trans b' a
    · exact BitVec.le_trans b' b
  · rcases c' with h | h
    · exact ⟨0, h⟩
    · rcases c with h2 | h2
      · exact ⟨1, h.trans h2⟩
      · exact ⟨2, h.trans h2⟩

theorem minRem_eq_zero_iff (s : State) :
    minRem s = 0#32 ↔ ∃ i : Fin 3, s.threads[i].rem = 0#32 := by
  obtain ⟨a, i, hi⟩ := minRem_spec s
  constructor
  · intro h; exact ⟨i, hi ▸ h⟩
  · rintro ⟨j, hj⟩; exact word_le_zero (hj ▸ a j)

theorem three_bits : ∀ (b0 b1 b2 : Bool) (i : Fin 3),
    (BitVec.ofBool b2 ++ BitVec.ofBool b1 ++ BitVec.ofBool b0 : BitVec 3).getLsbD i.val
      = (if i = 0 then b0 else if i = 1 then b1 else b2) := by decide

theorem zeroRem_bit (s : State) (i : Fin 3) :
    (zeroRem s).getLsbD i.val = true ↔ s.threads[i].rem = 0#32 := by
  unfold zeroRem
  rw [three_bits]
  fin_cases i <;> simp

theorem lowest_spec : ∀ d : BitVec 3, d ≠ 0#3 →
    d.getLsbD (lowest d).val = true ∧ ∀ i : Fin 3, i < lowest d → d.getLsbD i.val = false := by
  decide

theorem eq_lowest : ∀ (d : BitVec 3) (c : Fin 3), d.getLsbD c.val = true →
    (∀ i : Fin 3, i < c → d.getLsbD i.val = false) → c = lowest d := by decide

theorem due_ne_zero : ∀ (d : BitVec 3) (i : Fin 3), d.getLsbD i.val = true → d ≠ 0#3 := by decide

theorem without_bit : ∀ (d : BitVec 3) (c i : Fin 3),
    (without d c).getLsbD i.val = true ↔ d.getLsbD i.val = true ∧ i ≠ c := by decide

theorem lowest_lt_next : ∀ d : BitVec 3,
    without d (lowest d) ≠ 0#3 → lowest d < lowest (without d (lowest d)) := by decide

theorem subtractElapsed_thread (s : State) (i : Fin 3) :
    (subtractElapsed s).threads[i]
      = { s.threads[i] with rem := satsub s.threads[i].rem s.last } := by
  simp [subtractElapsed]

theorem recordReturn_cur (f : Byte) (s : State) :
    (recordReturn f s).threads[s.cur] = returnedThread f s := by
  simp [recordReturn, setThread]

theorem recordReturn_other (f : Byte) (s : State) (i : Fin 3) (h : i ≠ s.cur) :
    (recordReturn f s).threads[i] = s.threads[i] :=
  setThread_other s.cur i (returnedThread f s) s h

@[simp] theorem beginPass_threads (s : State) : (beginPass s).threads = s.threads := by
  rw [beginPass_eq]

@[simp] theorem continuePass_threads (s : State) : (continuePass s).threads = s.threads := by
  rw [continuePass_eq]

/-- The step completes. -/
theorem beginPass_completes {s : State} (h : minRem s ≠ 0#32) :
    beginPass s = { s with last := minRem s, due := 0#3, cur := 0, busy := false } := by
  rw [beginPass, if_pos h]

/-- A pass opens. -/
theorem beginPass_opens {s : State} (h : minRem s = 0#32) :
    beginPass s =
      { s with due := zeroRem s, cur := lowest (zeroRem s), busy := true } := by
  rw [beginPass, if_neg (by simp [h])]

/-- The next due thread of the pass is called. -/
theorem continuePass_calls {s : State} (h : s.due ≠ 0#3) :
    continuePass s = { s with cur := lowest s.due } := by
  rw [continuePass, if_pos h]

/-- The pass has ended. -/
theorem continuePass_ends {s : State} (h : s.due = 0#3) : continuePass s = beginPass s := by
  rw [continuePass, if_neg (by simp [h])]

end Sys2Proof.Machine
end

