-- ==== Sys2Proof/Tests/Slice0.lean ====
section
/-! SUPPORT. The model's own tests, on the reference configuration of spec/92_eei_decisions.md D39, with the
expected values of spec/95_test_vectors.md or worked out by hand from the rule that is named; and for
every obligation with hypotheses a witness that meets them. -/

namespace Sys2Proof.Tests

set_option Elab.async false

open Sys2Proof.Machine

/-- The reference configuration of D39. -/
def cfg : Config where
  pulseLut := Vector.ofFn fun b => BitVec.ofNat 7 (b.val * b.val / 62)
  initFn := #v[1#8, 2#8, 3#8]
  lagWindow := 1024

/-- Reset, with the reference configuration, and no event to come but ticks. -/
def s0 : State := { State.reset with cfg := cfg, later := .repeated [] }

/-- The start of V-RND-1. -/
def lit : State :=
  { s0 with br := ((s0.br.set 0 63#6).set 1 32#6).set 2 7#6 }

/-- The threads after V-SCH-1. -/
def threads0 : Vector Thread 3 :=
  #v[⟨1#8, true, 0#32⟩, ⟨2#8, true, 1000#32⟩, ⟨3#8, true, 1500#32⟩]

/-- The state of V-SCH-1. -/
def inited : State := { s0 with threads := threads0, sinit := true }

/-- The state of V-SCH-2: thread 0 is called. -/
def called : State := { inited with busy := true, due := 1#3 }

/-- Threads 0 and 1 are due and thread 0 is called. -/
def twoDue : State :=
  { called with
    threads := #v[⟨1#8, false, 0#32⟩, ⟨2#8, true, 0#32⟩, ⟨3#8, true, 500#32⟩]
    due := 3#3 }

/-- A swap is armed for tick 500. -/
def armed : State := { s0 with pending := true, target := 500#32 }

/-- A fault is recorded. -/
def faulted : State :=
  { s0 with fault := true, faultCode := 4#8, faultInfo := 0x00014114#32, ieFault := true }

/-- The state an instruction leads to. -/
def after (i : Instr) (s : State) : State :=
  match exec i s with
  | .next t => t
  | _ => s

/-! ### Well-formedness: an offset is inside the window -/

theorem test_wf_read_refused : (Instr.read .four 4096).wf = false := by decide
theorem test_wf_write_refused : (Instr.write .four 4096 0#32).wf = false := by decide
theorem test_wf_read_last : (Instr.read .four 4095).wf = true := by decide

/-! ### Decoding: words written out from spec/30_encoding.md R101, R102, R105 -/

/-- Renderer and no-op opcodes, and the words beside them (V-DEC-1, 2, 4, 6, 7, 8). -/
theorem test_decode_renderer :
    decodeCommand 0b00000000_00000000_00000000_00000000#32 = some .nop ∧
    decodeCommand 0b00000000_00000000_00000000_00000001#32 = none ∧
    decodeCommand 0b00000001_00000000_00000000_00000000#32 = some .render ∧
    decodeCommand 0b00000001_10000000_00000000_00000000#32 = none ∧
    decodeCommand 0b00000010_00000000_00000000_00000000#32 = some .renderList ∧
    decodeCommand 0b00000011_00000000_00000000_00000000#32 = none := by decide

/-- Swap arbiter and scheduler opcodes (V-DEC-10, 12 to 18). -/
theorem test_decode_scheduler :
    decodeCommand 0b00010000_00000000_00000000_00000000#32 = some .armSwap ∧
    decodeCommand 0b00010001_00000000_00000000_00000000#32 = none ∧
    decodeCommand 0b00100000_00000000_00000000_00000000#32 = some .schedInit ∧
    decodeCommand 0b00100001_00000000_00000000_00000000#32 = some .schedStep ∧
    decodeCommand 0b00100010_00000000_00000000_11111111#32 = some (.schedRet 255#8) ∧
    decodeCommand 0b00100010_00000000_00000001_00000000#32 = none := by decide

/-- Bus descriptors (V-DEC-23 to 27; `rd STATUS` 0x2008, `wr BR[5]` 0x6114). -/
theorem test_decode_bus :
    decodeBus 0b0_10_000000001000#15 9#32 = .read .four 0x008 ∧
    decodeBus 0b1_10_000100010100#15 9#32 = .write .four 0x114 9#32 ∧
    decodeBus 0b0_00_000100000000#15 9#32 = .read .one 0x100 ∧
    decodeBus 0b1_01_000100000000#15 9#32 = .write .two 0x100 9#32 ∧
    decodeBus 0b1_11_000100000000#15 9#32 = .write .reserved 0x100 9#32 := by decide

/-- Table words, numbered as the opcode table numbers them. -/
theorem test_decode_table_words :
    decodeTableWord 32 0x22000005 = some (.schedRet 5#8) ∧ decodeTableWord 32 0x03000000 = none ∧
    decodeTableWord 16 0x2008 = some (.read .four 8) ∧
    decodeTableWord 16 0x6010 = some (.write .four 0x010 0#32) ∧
    decodeTableWord 16 0x8000 = none := by decide

/-- A word placed as the next event is what the very next step runs: SCHED_INIT leaves `STATUS` = 0x08
(V-DEC-13). -/
theorem test_step_runs_the_placed_word :
    (match step (s0.withFetchWord 32 0x20000000) with
      | .next t => statusWord t == 0x08#32 && t.inputs.isEmpty
      | _ => false) = true := by decide +kernel

/-! ### One step of each instruction -/

/-- V-DEC-2: a reserved bit of NOP. -/
theorem test_nop_reserved_bit :
    (after (.write .four 0x00C 0x00000001#32) s0).faultCode = 1#8 ∧
    (after (.write .four 0x00C 0x00000001#32) s0).faultInfo = 1#32 := by decide +kernel

/-- V-RND-1. -/
theorem test_render :
    (∀ p : Fin 64, (after .render lit).bank1[p] = if p.val < 16 then 0x3#64 else 0x1#64) ∧
    (after .render lit).bank0 = lit.bank0 := by decide +kernel

/-- V-RND-9. -/
theorem test_render_while_pending :
    (after .render armed).faultCode = 6#8 ∧ (after .render armed).faultInfo = 0x01000000#32 ∧
    statusWord (after .render armed) = 0x21#32 := by decide +kernel

/-- V-RND-10: the high word, and only the LEDs of the mask. -/
theorem test_render_list :
    ∀ p : Fin 64, (after .renderList { lit with
      br := lit.br.set 39 63#6, subset := 0x8000000002#40 }).bank1[p] =
        if p.val < 16 then 0x8000000002#64 else 0x8000000000#64 := by decide +kernel

/-- V-ARM-1, with `SWAPPED` as it was. -/
theorem test_arm_swap :
    (after .armSwap { s0 with tick := 0x100#32, data := 0x180#32 }).target = 0x180#32 ∧
    statusWord (after .armSwap { s0 with tick := 0x100#32, data := 0x180#32 }) = 1#32 := by
  decide +kernel

/-- V-ARM-2. -/
theorem test_arm_while_pending :
    (after .armSwap { armed with data := 900#32 }).faultCode = 7#8 ∧
    (after .armSwap { armed with data := 900#32 }).target = 500#32 ∧
    statusWord (after .armSwap { armed with data := 900#32 }) = 0x21#32 := by decide +kernel

/-- V-SCH-1. -/
theorem test_sched_init :
    (after .schedInit s0).threads = threads0 ∧ statusWord (after .schedInit s0) = 0x08#32 := by
  decide +kernel

/-- V-SCH-14. -/
theorem test_sched_init_while_busy :
    (after .schedInit called).faultInfo = 0x20000000#32 ∧
    statusWord (after .schedInit called) = 0x38#32 := by decide +kernel

/-- V-SCH-2. -/
theorem test_sched_step :
    callWord (after .schedStep inited) = 0x80000101#32 ∧
    statusWord (after .schedStep inited) = 0x18#32 := by decide +kernel

/-- V-SCH-8, second step: the topper fires. -/
theorem test_sched_step_subtracts :
    callWord (after .schedStep { inited with
      threads := #v[⟨1#8, false, 2000#32⟩, ⟨2#8, true, 1000#32⟩, ⟨3#8, true, 1500#32⟩]
      last := 1000#32 }) = 0x80010102#32 := by decide +kernel

/-- V-SCH-3: `ret 1, 40` after V-SCH-2. -/
theorem test_sched_ret_completes :
    (after (.schedRet 1#8) { called with data := 40#32 }).last = 40#32 ∧
    (after (.schedRet 1#8) { called with data := 40#32 }).threads =
      #v[⟨1#8, false, 40#32⟩, ⟨2#8, true, 1000#32⟩, ⟨3#8, true, 1500#32⟩] ∧
    statusWord (after (.schedRet 1#8) { called with data := 40#32 }) = 0x08#32 := by decide +kernel

/-- V-SCH-6: a handoff with delay 0 is called again in the same step, with its first flag. -/
theorem test_sched_ret_handoff :
    callWord (after (.schedRet 7#8) called) = 0x80000107#32 := by decide +kernel

/-- V-BUS-1. -/
theorem test_read_id : (after (.read .four 0x000) s0).rdata = 0x01400328#32 := by decide +kernel

/-- V-BUS-17. -/
theorem test_read_unmapped :
    (after (.read .four 0x03C) { s0 with rdata := 7#32 }).rdata = 0#32 ∧
    (after (.read .four 0x03C) s0).faultInfo = 0x0000403C#32 := by decide +kernel

/-- V-BUS-8. -/
theorem test_write_out_of_range :
    (after (.write .four 0x114 64#32) s0).faultInfo = 0x00014114#32 ∧
    (after (.write .four 0x114 64#32) s0).faultCode = 4#8 ∧
    (after (.write .four 0x114 64#32) s0).br = s0.br := by decide +kernel

/-- V-BUS-25: `BAD_ACCESS` wins over `RO_WRITE`. -/
theorem test_write_misaligned :
    (after (.write .four 0x002 0#32) s0).faultInfo = 0x00014002#32 ∧
    (after (.write .four 0x002 0#32) s0).faultCode = 2#8 := by decide +kernel

/-- V-FLT-3 and V-FLT-4: the interrupt line. -/
theorem test_irq :
    irq (after (.write .four 0x100 99#32) { s0 with ieFault := true }) = true ∧
    irq (after (.write .four 0x004 1#32) faulted) = false := by decide +kernel

/-! ### Ticks -/

/-- V-TCK-6, tick 0: the swap comes before the shift. -/
theorem test_tick_swaps_then_shifts :
    statusWord (tickStep { s0 with bank1 := s0.bank1.set 0 1#64, pending := true }) = 6#32 ∧
    (tickStep { s0 with bank1 := s0.bank1.set 0 1#64, pending := true }).shift = 1#64 := by
  decide +kernel

/-- V-SWP-6 and V-SWP-7: a lag of 1023 swaps, one of 1024 does not. -/
theorem test_tick_lag_window :
    (tickStep { armed with tick := 0x1000#32, target := 0xC01#32 }).active = true ∧
    (tickStep { armed with tick := 0x1000#32, target := 0xC00#32 }).pending = true := by
  decide +kernel

/-- V-TCK-5: a latch tick, and the counter wraps. -/
theorem test_tick_wraps :
    (tickStep { s0 with tick := 0xFFFFFFFF#32, shift := 5#64 }).tick = 0#32 ∧
    (tickStep { s0 with tick := 0xFFFFFFFF#32, shift := 5#64 }).latch = 5#64 := by decide +kernel

/-! ### A witness for the hypotheses of every obligation that has some -/

theorem cfg_wf : cfg.wf := by decide +kernel

theorem s0_inv : s0.Inv := by decide +kernel

theorem called_inv : called.Inv := by decide +kernel

theorem twoDue_inv : twoDue.Inv := by decide +kernel

/-- No register stands at an offset that `regOf` does not know. -/
theorem no_register {off : Nat} (h : regOf off = none) : ¬ ∃ r, off = regOffset r := by
  rintro ⟨r, rfl⟩
  rw [regOf_regOffset] at h
  cases h

theorem witness_DecodeEncodeRoundTrip :
    (Instr.read .reserved 4095).WellFormed ∧ (Instr.write .four 0 0xFFFFFFFF#32).WellFormed ∧
    (Instr.schedRet 255#8).WellFormed := by decide

/-- A listed access, and the first event of a round. -/
theorem witness_StepRunsDecodedAccess :
    (nextEvent { s0 with later := .repeated [.access 0x2008#15 0#32] }).1 = .access 0x2008#15 0#32 ∧
    (nextEvent { s0 with later := .repeated [.access 0x600C#15 0x22000005#32] }).1
      = .access 0x600C#15 0x22000005#32 ∧
    { s0 with inputs := [.access 0x2008#15 0#32, .tick] }.inputs = .access 0x2008#15 0#32 :: [.tick] ∧
    { s0 with inputs := [.access 0x600C#15 0x22000005#32] }.inputs
      = .access 0x600C#15 0x22000005#32 :: [] ∧
    decodeCommand 0x22000005#32 = some (.schedRet 5#8) := by decide +kernel

theorem witness_StepTakesTick :
    (nextEvent s0).1 = .tick ∧ { s0 with inputs := [.tick, .powerOn] }.inputs = .tick :: [.powerOn] ∧
    s0.inputs = [] ∧ hostRound { s0 with later := .repeated [.powerOn] } = [.powerOn] := by
  decide +kernel

theorem witness_PowerOnResetsAll :
    (nextEvent { faulted with inputs := [.powerOn, .tick] }).1 = .powerOn := by decide +kernel

theorem witness_ConfigurationIsFixed : ∃ t, step s0 = .next t := ⟨_, rfl⟩

theorem witness_RegistersAfterReset :
    ∀ r ∈ [Reg.status, .ctrl, .result, .call],
      r = .status ∨ r = .ctrl ∨ r = .result ∨ r = .call := by decide

theorem witness_LedsStayDarkAfterReset :
    ∃ t, { lit with inputs := [.access 0x600C#15 0x01000000#32] }.Dark ∧
      step { lit with inputs := [.access 0x600C#15 0x01000000#32] } = .next t ∧
      t.active = lit.active :=
  ⟨_, by decide +kernel, rfl, by decide +kernel⟩

theorem witness_StepKeepsInvariant : ∃ t, s0.Inv ∧ step s0 = .next t := ⟨_, s0_inv, rfl⟩

/-- Both outcomes of the map, at the ends of every gap of R45. -/
theorem witness_RegisterMapExact :
    (∀ off ∈ [0x03C, 0x058, 0x0FC, 0x1A0, 0x1FC, 0x300, 0x7FC, 0xC00, 0xFFC],
      off < 4096 ∧ off % 4 = 0 ∧ regOf off = none) ∧
    (∀ off ∈ [0x038, 0x040, 0x054, 0x100, 0x19C, 0x200, 0x2FC, 0x800, 0xBFC],
      off < 4096 ∧ off % 4 = 0 ∧ regOf off ≠ none) := by decide

theorem witness_BadAccessFaults :
    (0x03C < 4096 ∧
      ¬(AccessSize.four = .four ∧ 0x03C % 4 = 0 ∧ ∃ r, 0x03C = regOffset r)) ∧
    (0xFFC < 4096 ∧
      ¬(AccessSize.four = .four ∧ 0xFFC % 4 = 0 ∧ ∃ r, 0xFFC = regOffset r)) ∧
    (0x101 < 4096 ∧
      ¬(AccessSize.four = .four ∧ 0x101 % 4 = 0 ∧ ∃ r, 0x101 = regOffset r)) ∧
    (0x100 < 4096 ∧
      ¬(AccessSize.reserved = .four ∧ 0x100 % 4 = 0 ∧ ∃ r, 0x100 = regOffset r)) :=
  ⟨⟨by decide, fun h => no_register (by decide) h.2.2⟩,
    ⟨by decide, fun h => no_register (by decide) h.2.2⟩,
    ⟨by decide, fun h => absurd h.2.1 (by decide)⟩,
    ⟨by decide, fun h => absurd h.1 (by decide)⟩⟩

theorem witness_ReadOnlyWriteFaults :
    ∀ r ∈ [Reg.id, .result, .call, .tick, .target, .faultCode, .faultInfo, .latchLo, .latchHi,
        .threadRem 2, .threadFn 0, .lut 63, .bank true 63 true],
      r ≠ .ctrl ∧ r ≠ .status ∧ r ≠ .cmd ∧ r ≠ .data ∧ r ≠ .subsetLo ∧ r ≠ .subsetHi ∧
        ∀ i, r ≠ .br i := by decide

theorem witness_CtrlRegister :
    (3#32).toNat < 4 ∧ (0#32).toNat < 4 ∧ 4 ≤ (4#32).toNat ∧ 4 ≤ (0xFFFFFFFF#32).toNat := by
  decide

theorem witness_DataRegister :
    (∃ t, s0.pending = false ∧ exec .armSwap s0 = .next t) ∧
    (∃ t, called.busy = true ∧ exec (.schedRet 1#8) called = .next t) ∧
    ∃ t, Instr.render.isCommand = true ∧ exec .render s0 = .next t :=
  ⟨⟨_, rfl, rfl⟩, ⟨_, rfl, rfl⟩, ⟨_, rfl, rfl⟩⟩

theorem witness_SubsetRegisters :
    (255#32).toNat < 256 ∧ (0#32).toNat < 256 ∧ 256 ≤ (256#32).toNat := by decide

theorem witness_BrightnessRegister :
    (63#32).toNat < 64 ∧ (0#32).toNat < 64 ∧ 64 ≤ (64#32).toNat := by decide

theorem witness_CallRegister : twoDue.busy = true ∧ s0.busy = false := by decide

theorem witness_BankWindow : lit.Inv := by decide +kernel

theorem witness_OtherReadValues : { lit with latch := 0xFF00000001#64 }.Inv := by decide +kernel

theorem witness_CmdWriteIsTheCommand :
    decodeCommand 0x10000000#32 = some .armSwap ∧ decodeCommand 0x10000001#32 = none := by decide

/-- Each of the three ways in which a word is illegal. -/
theorem witness_IllegalWordFaults :
    (0x03000000#32).extractLsb' 24 8
      ∉ [0x00#8, 0x01#8, 0x02#8, 0x10#8, 0x20#8, 0x21#8, 0x22#8] ∧
    ((0x22000100#32).extractLsb' 24 8 = 0x22#8 ∧ (0x22000100#32).extractLsb' 8 16 ≠ 0#16) ∧
    ((0x01000001#32).extractLsb' 24 8 ≠ 0x22#8 ∧ (0x01000001#32).extractLsb' 0 24 ≠ 0#24) := by
  decide

theorem witness_NopChangesNothing :
    0x00800000#32 ≠ 0#32 ∧ (0x00800000#32).extractLsb' 24 8 = 0#8 := by decide

/-- A READ that faults and is the first to, and a command that is not. -/
theorem witness_FaultHasNoOtherEffect :
    (∃ t u, exec (.read .four 0x03C) { s0 with fault := false } = .next u ∧ u.fault = true ∧
      exec (.read .four 0x03C) s0 = .next t ∧ Instr.read .four 0x03C = .read .four 0x03C) ∧
    ∃ t u, exec .schedStep { faulted with fault := false } = .next u ∧ u.fault = true ∧
      exec .schedStep faulted = .next t ∧ ∀ size off, Instr.schedStep ≠ .read size off :=
  ⟨⟨_, _, rfl, by decide +kernel, rfl, rfl⟩, _, _, rfl, by decide +kernel, rfl, nofun⟩

/-- A step from a faulted state; a run that leaves one by power-on, and so ends without a fault; and a
run without power-on. -/
theorem witness_FaultRecordIsSticky :
    (∃ t, faulted.fault = true ∧ (nextEvent faulted).1 ≠ .powerOn ∧ step faulted = .next t) ∧
    (∃ u v, 0 ≤ 1 ∧ steps 0 { faulted with inputs := [.powerOn] } = some u ∧ u.fault = true ∧
      steps 1 { faulted with inputs := [.powerOn] } = some v ∧ v.fault = false) ∧
    ∃ t, (∀ k < 1, ∀ u, steps k s0 = some u → (nextEvent u).1 ≠ .powerOn) ∧ steps 1 s0 = some t :=
  ⟨⟨_, rfl, by decide +kernel, rfl⟩,
    ⟨_, _, by decide, rfl, rfl, rfl, by decide +kernel⟩, _, fun k hk u hu => by
      obtain rfl : k = 0 := by omega
      cases hu; decide +kernel, rfl⟩

/-- A fault of each instruction that has one. -/
theorem witness_FaultCausesByOperation :
    (after .render armed).fault = true ∧ (after .renderList armed).fault = true ∧
    (after .armSwap armed).fault = true ∧ (after .schedInit called).fault = true ∧
    (after .schedStep s0).fault = true ∧ (after (.schedRet 5#8) s0).fault = true ∧
    (after (.read .one 0x100) s0).fault = true ∧ (after (.write .two 0x100 0#32) s0).fault = true ∧
    (after (.write .four 0x000 0#32) s0).fault = true ∧
    (after (.write .four 0x004 4#32) s0).fault = true ∧
    (after (.write .four 0x00C 0x03000000#32) s0).fault = true ∧
    (after (.write .four 0x00C 0x10000000#32) armed).fault = true ∧
    s0.fault = false ∧ armed.fault = false ∧ called.fault = false := by decide +kernel

theorem witness_InterruptLine :
    ∃ t, faulted.fault = true ∧ faulted.ieFault = true ∧
      (nextEvent faulted).1 ≠ .powerOn ∧ step faulted = .next t :=
  ⟨_, rfl, rfl, by decide +kernel, rfl⟩

theorem witness_RenderRasterizesAll : lit.pending = false ∧ armed.pending = true := by decide

theorem witness_RenderListRasterizesSubset :
    { lit with subset := 2#40 }.pending = false ∧
    { lit with subset := 2#40 }.subset.getLsbD (1 : Fin 40).val = true ∧
    { lit with subset := 2#40 }.subset.getLsbD 0 = false ∧
    { lit with subset := 2#40 }.subset.getLsbD 40 = false ∧ armed.pending = true := by decide

theorem witness_DecodingLaw :
    lit.cfg.wf ∧ lit.pending = false ∧ (∃ t, exec .render lit = .next t) ∧
    ∃ t, { lit with subset := 2#40 }.subset.getLsbD (1 : Fin 40).val = true ∧
      exec .renderList { lit with subset := 2#40 } = .next t :=
  ⟨cfg_wf, rfl, ⟨_, rfl⟩, _, by decide, rfl⟩

theorem witness_SubsetLaw :
    ∃ t u, lit.pending = false ∧ exec .render lit = .next t ∧ exec .renderList lit = .next u :=
  ⟨_, _, rfl, rfl, rfl⟩

theorem witness_NestingLaw :
    ∃ t, lit.cfg.wf ∧ lit.pending = false ∧ exec .render lit = .next t ∧
      t.ledBit (!lit.active) 15 1 = true ∧ lit.br[(2 : Fin 40)] ≤ lit.br[(1 : Fin 40)] ∧
      lit.br[(1 : Fin 40)] ≤ lit.br[(0 : Fin 40)] :=
  ⟨_, cfg_wf, rfl, rfl, by decide +kernel, by decide +kernel, by decide +kernel⟩

theorem witness_StreamedBankIsNeverWritten :
    (∃ t, (nextEvent lit).1 ≠ .powerOn ∧ step lit = .next t) ∧
    ∃ t, (nextEvent armed).1 ≠ .powerOn ∧ step armed = .next t ∧ armed.pending = true :=
  ⟨⟨_, by decide +kernel, rfl⟩, _, by decide +kernel, rfl, rfl⟩

theorem witness_ArmSwapSetsTarget : s0.pending = false ∧ armed.pending = true := by decide

/-- A latch tick; a shift tick of phase 0 that swaps, with the greatest lag; one whose lag is the least
that does not; and one of phase 63. -/
theorem witness_TickShiftsOrLatches :
    { s0 with tick := 0xFFFFFFFF#32 }.tick.toNat % 2 = 1 ∧
    (armed.tick.toNat % 128 = 2 * (0 : Fin 64).val) ∧
    (({ armed with tick := 0x1000#32, target := 0xC01#32 }.tick.toNat + 2 ^ 32
      - { armed with tick := 0x1000#32, target := 0xC01#32 }.target.toNat) % 2 ^ 32
        < armed.cfg.lagWindow) ∧
    ¬(({ armed with tick := 0x1000#32, target := 0xC00#32 }.tick.toNat + 2 ^ 32
      - { armed with tick := 0x1000#32, target := 0xC00#32 }.target.toNat) % 2 ^ 32
        < armed.cfg.lagWindow) ∧
    { armed with tick := 0x7E#32 }.tick.toNat % 128 = 2 * (63 : Fin 64).val := by decide +kernel

theorem witness_OnlyADueSwapChangesActive :
    ∃ t, (nextEvent { armed with target := 0#32 }).1 ≠ .powerOn ∧
      step { armed with target := 0#32 } = .next t ∧ t.active ≠ armed.active :=
  ⟨_, by decide +kernel, rfl, by decide +kernel⟩

theorem witness_FieldOwnership :
    (∃ t, exec .nop { armed with swapped := true } = .next t ∧ armed.pending = true ∧
      t.swapped = true) ∧
    (tickStep armed).pending = true ∧ { s0 with swapped := true }.swapped = true :=
  ⟨⟨_, rfl, rfl, rfl⟩, by decide +kernel, rfl⟩

/-- A swap is armed for tick g, and the counter stands at T. -/
def armedAt (T g : Word) : State := { armed with tick := T, target := g }

/-- The nearest and the farthest target ahead (V-SWP-1 and V-SWP-10). -/
theorem witness_SwapAtFirstBoundaryAfterTarget :
    ((armedAt 0#32 0#32).cfg.wf ∧ (armedAt 0#32 0#32).pending = true ∧
      0 = ((armedAt 0#32 0#32).target.toNat + 2 ^ 32 - (armedAt 0#32 0#32).tick.toNat) % 2 ^ 32 ∧
      0 ≤ 2 ^ 32 - (armedAt 0#32 0#32).cfg.lagWindow) ∧
    (armedAt 0#32 0xFFFFFC00#32).cfg.wf ∧ (armedAt 0#32 0xFFFFFC00#32).pending = true ∧
      4294966272 = ((armedAt 0#32 0xFFFFFC00#32).target.toNat + 2 ^ 32
        - (armedAt 0#32 0xFFFFFC00#32).tick.toNat) % 2 ^ 32 ∧
      4294966272 ≤ 2 ^ 32 - (armedAt 0#32 0xFFFFFC00#32).cfg.lagWindow :=
  ⟨⟨cfg_wf, rfl, by decide +kernel, by decide +kernel⟩, cfg_wf, rfl, by decide +kernel,
    by decide +kernel⟩

/-- A target 1023 ticks late, which is swapped at once, and one 1024 ticks late, which is not (V-SWP-6 and
V-SWP-7); the counter of each stands at the first tick of a cycle. -/
theorem witness_OverdueSwapNowOrAfterTheWrap :
    ((armedAt 0x1000#32 0xC01#32).cfg.wf ∧ (armedAt 0x1000#32 0xC01#32).pending = true ∧
      1023 = ((armedAt 0x1000#32 0xC01#32).tick.toNat + 2 ^ 32
        - (armedAt 0x1000#32 0xC01#32).target.toNat) % 2 ^ 32 ∧
      0 < 1023 ∧ 0 < 128 ∧ ((armedAt 0x1000#32 0xC01#32).tick.toNat + 0) % 128 = 0 ∧
      1023 + 0 < (armedAt 0x1000#32 0xC01#32).cfg.lagWindow) ∧
    (armedAt 0x1000#32 0xC00#32).cfg.wf ∧ (armedAt 0x1000#32 0xC00#32).pending = true ∧
      1024 = ((armedAt 0x1000#32 0xC00#32).tick.toNat + 2 ^ 32
        - (armedAt 0x1000#32 0xC00#32).target.toNat) % 2 ^ 32 ∧
      0 < 1024 ∧ 0 < 128 ∧ ((armedAt 0x1000#32 0xC00#32).tick.toNat + 0) % 128 = 0 ∧
      (armedAt 0x1000#32 0xC00#32).cfg.lagWindow ≤ 1024 + 0 ∧ 4294966272 ≤ 2 ^ 32 - 1024 :=
  ⟨⟨cfg_wf, rfl, by decide +kernel⟩, cfg_wf, rfl, by decide +kernel⟩

theorem witness_CycleShowsOneBankInOrder :
    armed.tick.toNat % 128 = 0 ∧ { armed with tick := 0x80#32 }.tick.toNat % 128 = 0 := by
  decide +kernel

/-- The bank that RENDER wrote is the one a cycle streams: no tick swaps where nothing is pending. -/
theorem witness_DutyLaw :
    ∃ t, lit.cfg.wf ∧ lit.pending = false ∧ exec .render lit = .next t ∧
      ∃ u : State, u.tick.toNat % 128 = 0 ∧ u.bank (tickStep u).active = t.bank (!lit.active) :=
  ⟨_, cfg_wf, rfl, rfl, { after .render lit with active := true }, by decide +kernel, by
    decide +kernel⟩

/-- A step that completes and one that opens a pass. -/
theorem witness_BeginPassOpensOrCompletes :
    (∀ i : Fin 3, { s0 with threads :=
      #v[⟨1#8, false, 40#32⟩, ⟨2#8, true, 1000#32⟩, ⟨3#8, true, 1500#32⟩] }.threads[i].rem ≠ 0#32) ∧
    ∃ i : Fin 3, inited.threads[i].rem = 0#32 := by decide +kernel

theorem witness_SchedInitCreatesThreads : s0.busy = false ∧ called.busy = true := by decide

theorem witness_SchedStepBeginsStep :
    inited.sinit = true ∧ inited.busy = false ∧ s0.sinit = false ∧ called.busy = true := by decide

/-- A call with another due thread after it, the last call of a pass, and no call. -/
theorem witness_SchedRetReturnsFromCall :
    twoDue.busy = true ∧ without twoDue.due twoDue.cur ≠ 0#3 ∧
    called.busy = true ∧ without called.due called.cur = 0#3 ∧ s0.busy = false := by decide

theorem witness_StepCompletesWithMinimum :
    ∃ t, exec (.schedRet 1#8) { called with data := 40#32 } = .next t ∧
      Instr.schedRet 1#8 ≠ .schedInit ∧
      (∀ w, Instr.schedRet 1#8 = .write .four 0x00C w → w ≠ 0x20000000#32) ∧
      t.last ≠ called.last ∧ called.busy = true ∧ t.busy = false :=
  ⟨_, rfl, by decide, fun _ h => Instr.noConfusion h, by decide +kernel, rfl, by decide +kernel⟩

theorem witness_CallsAscendWithinAPass :
    ∃ t, twoDue.Inv ∧ twoDue.busy = true ∧ exec (.schedRet 1#8) twoDue = .next t ∧
      without twoDue.due twoDue.cur ≠ 0#3 :=
  ⟨_, twoDue_inv, rfl, rfl, by decide⟩

/-- The last call of a pass, and one with another due thread after it. -/
theorem witness_ZeroDelayIsCalledAgainInTheStep :
    (∃ t, called.busy = true ∧ called.data = 0#32 ∧ exec (.schedRet 7#8) called = .next t ∧
      without called.due called.cur = 0#3) ∧
    ∃ t, twoDue.busy = true ∧ twoDue.data = 0#32 ∧ exec (.schedRet 7#8) twoDue = .next t ∧
      without twoDue.due twoDue.cur ≠ 0#3 :=
  ⟨⟨_, rfl, rfl, rfl, by decide⟩, _, rfl, rfl, rfl, by decide⟩

/-- The state of V-SCH-3, whose result was not 0, and the one of V-SCH-1, whose last result is. -/
theorem witness_SubtractionMakesAThreadDue :
    { inited with
      threads := #v[⟨1#8, false, 40#32⟩, ⟨2#8, true, 1000#32⟩, ⟨3#8, true, 1500#32⟩]
      last := 40#32 }.Inv ∧ inited.Inv ∧ inited.sinit = true ∧ inited.busy = false :=
  ⟨by decide +kernel, by decide +kernel, rfl, rfl⟩

/-- An effect that hands off to itself for ever, and one that returns 40 ms and lights an LED. -/
def zeroEffect : Effects Unit := fun c _ => ⟨[], c.fn, 0#32, ()⟩
def plainEffect : Effects Unit := fun c _ => ⟨[.setbr 0 63#6], c.fn, 40#32, ()⟩

/-- The host of `inited`, and one tick before each of its accesses. -/
def host : HostRun := ⟨inited, 0⟩
def oneTick : Nat → Nat := fun _ => 1

/-- V-SCH-2 with effects that return 0 for ever, and with a host that does so in every round. -/
theorem witness_EndlessZeroDelaysNeverComplete :
    ((∀ c y, (zeroEffect c y).delay = 0#32) ∧ (HostRun.mk called 0).state.busy = true ∧
      ∀ c y, ∀ a ∈ (zeroEffect c y).actions, a.isSetbr = true) ∧
    ∃ s : State, s.busy = true ∧ s.data = 0#32 ∧ s.inputs = [] ∧
      s.later = .repeated [.access 0x600C#15 (commandWord (.schedRet 1#8))] :=
  ⟨⟨fun _ _ => rfl, rfl, fun _ _ _ h => nomatch h⟩,
    { called with later := .repeated [.access 0x600C#15 (commandWord (.schedRet 1#8))] },
    rfl, rfl, rfl, rfl⟩

/-- Both directions: the source's step completes after one round, the block's after one call. -/
theorem witness_SchedulerRefinesSourceStep :
    ∃ h₁, host.state.sinit = true ∧ host.state.busy = false ∧
      hostAccess oneTick (wrCommand .schedStep) host = some h₁ ∧
      (sourceStep plainEffect 1 host.state.last host.state.threads host.state.br ()).isSome = true ∧
      (serveCalls plainEffect oneTick 1 h₁ () []).isSome = true :=
  ⟨_, rfl, rfl, rfl, by decide +kernel, by decide +kernel⟩

/-- The greatest distance that the bound admits (R274). -/
theorem witness_ArmInHitsItsTarget :
    s0.pending = false ∧ s0.cfg.wf ∧
    msToTicks 1000 0xFFFFFC00#32 ≤ 2 ^ 32 - s0.cfg.lagWindow :=
  ⟨rfl, cfg_wf, by decide +kernel⟩

/-- An LED of the mask, one outside it and a bit that is no LED. -/
theorem witness_RenderListSequence :
    lit.pending = false ∧ (2#40).getLsbD (1 : Fin 40).val = true ∧ (2#40).getLsbD 0 = false ∧
    (2#40).getLsbD 40 = false ∧ (2#40).getLsbD 63 = false := by decide

/-- An iteration that ends, with a target that is due at once and one tick in all, before the poll; and, with `TICK_HZ` = 1000, a delay of 40 ms, a tick before every access and 168 polls, the
premises of the second clause. -/
theorem witness_MainLoopShowsTheFrame :
    host.state.cfg.wf ∧ host.state.sinit = true ∧ host.state.busy = false ∧
    host.state.pending = false ∧ (∀ c y, ∀ a ∈ (plainEffect c y).actions, a.isSetbr = true) ∧
    (mainLoop plainEffect (fun j => if j = 12 then 1 else 0) 0 1 1 host ()).isSome = true ∧
    ∃ h₁ r, hostAccess oneTick (wrCommand .schedStep) host = some h₁ ∧
      serveCalls plainEffect oneTick 1 h₁ () [] = some r ∧ (∀ j, 1 ≤ oneTick j ∧ oneTick j ≤ 1) ∧
      2 * 1 ≤ msToTicks 1000 r.1.state.last ∧
      msToTicks 1000 r.1.state.last ≤ 2 ^ 32 - host.state.cfg.lagWindow ∧
      msToTicks 1000 r.1.state.last + 128 ≤ 168 :=
  ⟨cfg_wf, rfl, rfl, rfl,
    fun _ _ a h => by rw [List.mem_singleton.1 h]; rfl,
    by decide +kernel, _, _, rfl, rfl, fun _ => ⟨Nat.le_refl 1, Nat.le_refl 1⟩, by decide +kernel,
    by decide +kernel, by decide +kernel⟩

end Sys2Proof.Tests
end

section
/-! SUPPORT. The parameters in the reset state are ones R8 and R9 allow. -/

namespace Sys2Proof.Config

theorem riseSum_mono {a b : Nat} (h : a ≤ b) : riseSum a ≤ riseSum b :=
  monotone_nat_of_le_succ (fun _ => Nat.le_add_right _ _) h

theorem board_pulseLut (b : Fin 64) :
    (board.pulseLut[b]).toNat = min 64 (riseSum (b.val + 1)) := by
  have : min 64 (riseSum (b.val + 1)) < 2 ^ 7 := by omega
  simp only [board, Fin.getElem_fin, Vector.getElem_ofFn, BitVec.toNat_ofNat, Nat.mod_eq_of_lt this]

/-- Rises that are added up give a table that never falls, and the cut at 64 keeps its range. -/
theorem board_wf : board.wf := by
  have hlag : board.lagWindow = 128 + lagChoice % (2 ^ 31 - 127) := rfl
  refine ⟨fun b => ?_, fun a b hab => ?_, ?_, ?_⟩
  · rw [board_pulseLut]; exact min_le_left _ _
  · rw [board_pulseLut, board_pulseLut]
    exact min_le_min_left _ (riseSum_mono (Nat.succ_le_succ hab))
  · omega
  · have := Nat.mod_lt lagChoice (show 0 < 2 ^ 31 - 127 by decide)
    omega

end Sys2Proof.Config
end

section
/-! SUPPORT. The invariant of spec/10_state.md R72 in two parts, what the scheduler keeps and the rest, and
one lemma for each operation that touches a part. -/

namespace Sys2Proof.Machine

/-- The scheduler's part of the invariant. -/
def State.SchedulerInv (s : State) : Prop := s.CallOutstanding ∧ s.LastIsLeast ∧ s.NoCall

/-- The part of the invariant that the scheduler's elements have no say in. -/
def State.FrameRecordInv (s : State) : Prop :=
  s.FramesClean ∧ s.RecordEmpty ∧ s.RecordLegal ∧ s.cfg.wf

theorem inv_iff {s : State} : s.Inv ↔ s.FrameRecordInv ∧ s.SchedulerInv := by
  unfold State.FrameRecordInv State.SchedulerInv State.Inv
  constructor
  · rintro ⟨hframes, hcall, hlast, hempty, hlegal, hidle, hcfg⟩
    exact ⟨⟨hframes, hempty, hlegal, hcfg⟩, hcall, hlast, hidle⟩
  · rintro ⟨⟨hframes, hempty, hlegal, hcfg⟩, hcall, hlast, hidle⟩
    exact ⟨hframes, hcall, hlast, hempty, hlegal, hidle, hcfg⟩

/-- The scheduler's part of the invariant speaks of the scheduler's elements only. -/
theorem schedulerInv_congr {s t : State} (h : t.sched = s.sched) (hs : s.SchedulerInv) :
    t.SchedulerInv := by
  cases s; cases t
  simp only [State.sched, SchedPart.mk.injEq] at h
  obtain ⟨rfl, rfl, rfl, rfl, rfl, rfl, rfl⟩ := h
  exact hs

theorem bank_clean {s : State} (h : s.FramesClean) (k : Bool) (p : Fin 64) :
    (s.bank k)[p].extractLsb' 40 24 = 0#24 := by
  obtain ⟨h0, h1, -, -⟩ := h
  cases k
  · exact h0 p
  · exact h1 p

/-! The frames and the record -/

theorem faultByte_legal (c : FaultCode) :
    1 ≤ (faultByte c).toNat ∧ (faultByte c).toNat ≤ 7 := by
  cases c <;> decide

theorem raiseFault_inv {s : State} (c : FaultCode) (w : Word) (hs : s.Inv) :
    (raiseFault c w s).Inv := by
  obtain ⟨⟨hframes, -, hlegal, hcfg⟩, hsched⟩ := inv_iff.1 hs
  refine inv_iff.2 ⟨?_, schedulerInv_congr (raiseFault_sched c w s) hsched⟩
  rw [raiseFault_eq]
  refine ⟨hframes, nofun, fun _ => ?_, hcfg⟩
  cases hf : s.fault
  · exact faultByte_legal c
  · exact hlegal hf

theorem setBank_inv {s : State} (k : Bool) {b : Bank}
    (hb : ∀ p : Fin 64, b[p].extractLsb' 40 24 = 0#24) (hs : s.Inv) : (setBank k b s).Inv := by
  obtain ⟨⟨⟨h0, h1, hshift, hlatch⟩, hrest⟩, hsched⟩ := inv_iff.1 hs
  refine inv_iff.2 ⟨?_, schedulerInv_congr (setBank_sched k b s) hsched⟩
  cases k
  · exact ⟨⟨hb, h1, hshift, hlatch⟩, hrest⟩
  · exact ⟨⟨h0, hb, hshift, hlatch⟩, hrest⟩

/-- A tick moves a frame of a bank to `SHIFT`, or `SHIFT` to `LATCH`. -/
theorem tickStep_framesClean {s : State} (hs : s.FramesClean) : (tickStep s).FramesClean := by
  have hbank := bank_clean hs
  obtain ⟨h0, h1, hshift, hlatch⟩ := hs
  unfold tickStep shiftTick latchTick
  cases s.tick.getLsbD 0
  · cases swapNow s
    · exact ⟨h0, h1, hbank _ _, hlatch⟩
    · exact ⟨h0, h1, hbank (!s.active) (phase s), hlatch⟩
  · exact ⟨h0, h1, hshift, hshift⟩

theorem tickStep_inv {s : State} (hs : s.Inv) : (tickStep s).Inv := by
  obtain ⟨⟨hframes, hrest⟩, hsched⟩ := inv_iff.1 hs
  refine inv_iff.2 ⟨⟨tickStep_framesClean hframes, ?_⟩, schedulerInv_congr (tickStep_sched s) hsched⟩
  rw [tickStep_eq]
  exact hrest

/-- Everything at 0 has the invariant, whatever parameters within their bounds it carries. -/
theorem powerOn_inv {s : State} (hcfg : s.cfg.wf) : (powerOn s).Inv := by
  refine inv_iff.2 ⟨⟨⟨fun p => ?_, fun p => ?_, ?_, ?_⟩, fun _ => ⟨rfl, rfl⟩, nofun, hcfg⟩,
    nofun, nofun, fun _ => ⟨rfl, rfl⟩⟩
  all_goals simp [powerOn, State.reset]

/-! The scheduler -/

/-- While a call is outstanding the clauses about the time between steps ask nothing. -/
theorem schedulerInv_of_call {s : State} (hb : s.busy = true)
    (hcall : s.sinit = true ∧ s.due ≠ 0#3 ∧ s.cur = lowest s.due ∧
      ∀ t : Fin 3, s.due.getLsbD t.val = true → s.threads[t].rem = 0#32) : s.SchedulerInv :=
  have hbusy : s.busy ≠ false := by simp [hb]
  ⟨fun _ => hcall, fun h => absurd h hbusy, fun h => absurd h hbusy⟩

/-- Either way `begin_pass()` goes, the scheduler's part of the invariant holds after it
(spec/40_scheduler.md R123). -/
theorem beginPass_schedulerInv {s : State} (hinit : s.sinit = true) :
    (beginPass s).SchedulerInv := by
  by_cases h : minRem s = 0#32
  · obtain ⟨i, hi⟩ := (minRem_eq_zero_iff s).1 h
    have hdue : zeroRem s ≠ 0#3 := due_ne_zero _ i ((zeroRem_bit s i).2 hi)
    rw [beginPass_opens h]
    exact schedulerInv_of_call rfl ⟨hinit, hdue, rfl, fun t => (zeroRem_bit s t).1⟩
  · obtain ⟨hle, hmin⟩ := minRem_spec s
    rw [beginPass_completes h]
    exact ⟨nofun, fun _ _ => ⟨hle, fun _ => hmin⟩, fun _ => ⟨rfl, rfl⟩⟩

/-- After a return the threads still due have no delay left, since the returned one is not among them
(spec/40_scheduler.md R126). -/
theorem recordReturn_due {s : State} (f : Byte)
    (hdue : ∀ t : Fin 3, s.due.getLsbD t.val = true → s.threads[t].rem = 0#32) (t : Fin 3)
    (ht : (recordReturn f s).due.getLsbD t.val = true) :
    (recordReturn f s).threads[t].rem = 0#32 := by
  obtain ⟨hin, hne⟩ := (without_bit s.due s.cur t).1 ht
  rw [recordReturn_other f s t hne]
  exact hdue t hin

theorem schedRet_schedulerInv {s : State} (f : Byte) (hb : s.busy = true) (hs : s.SchedulerInv) :
    (continuePass (recordReturn f s)).SchedulerInv := by
  obtain ⟨hcall, -, -⟩ := hs
  obtain ⟨hinit, -, -, hzero⟩ := hcall hb
  by_cases h : (recordReturn f s).due = 0#3
  · rw [continuePass_ends h]
    exact beginPass_schedulerInv hinit
  · rw [continuePass_calls h]
    exact schedulerInv_of_call hb ⟨hinit, h, rfl, recordReturn_due f hzero⟩

/-! Steps -/

theorem HostEffect.keeps_inv {i : Instr} {s t : State} (h : HostEffect i s t) (hs : s.Inv) :
    t.Inv := by
  obtain ⟨hrest, hsched⟩ := inv_iff.1 hs
  cases h with
  | fault c w => exact raiseFault_inv c w hs
  | readFault z o w => exact raiseFault_inv .badAccess w hs
  | read | unchanged | ctrl | ack | data | subset | br | arm => exact hs
  | render =>
    refine setBank_inv _ (fun p => ?_) hs
    simpa using renderFrame_clean s p
  | renderList =>
    refine setBank_inv _ (fun p => ?_) hs
    obtain ⟨hframes, -⟩ := hrest
    simpa using renderListFrame_clean s p _ (bank_clean hframes (!s.active) p)
  | schedInit hc hb =>
    exact inv_iff.2 ⟨hrest, fun hbusy => absurd (hb.symm.trans hbusy) nofun,
      fun _ _ => ⟨fun t => Nat.zero_le _, fun h0 => absurd rfl h0⟩, fun _ => ⟨rfl, rfl⟩⟩
  | schedStep hc hi =>
    refine inv_iff.2 ⟨?_, beginPass_schedulerInv hi⟩
    rw [beginPass_eq]
    exact hrest
  | schedRet f hc hb =>
    refine inv_iff.2 ⟨?_, schedRet_schedulerInv f hb hsched⟩
    rw [continuePass_eq]
    exact hrest

/-- Settles O13: a tick, a host operation and power-on each keep the invariant. -/
theorem stepKeepsInvariant : Obligations.StepKeepsInvariant := by
  intro s t hs h
  obtain ⟨q, k, ⟨-, rfl⟩ | ⟨d, v, -, heff⟩ | ⟨-, rfl⟩⟩ := step_cases h
  · exact tickStep_inv (s := { s with inputs := q, rounds := k }) hs
  · exact heff.keeps_inv hs
  · obtain ⟨-, -, -, -, -, -, hcfg⟩ := hs
    exact powerOn_inv hcfg

/-- Settles O12: power-on of the reset state is the reset state, whose parameters are within their bounds. -/
theorem invariantAtReset : Obligations.InvariantAtReset :=
  powerOn_inv (s := State.reset) Config.board_wf

/-! The configuration -/

theorem HostEffect.cfg_eq {i : Instr} {s t : State} (h : HostEffect i s t) : t.cfg = s.cfg := by
  cases h with
  | fault c w => exact raiseFault_cfg c w s
  | readFault z o w => exact raiseFault_cfg .badAccess w s
  | read | unchanged | ctrl | ack | data | subset | br | arm | schedInit => rfl
  | render | renderList => exact setBank_cfg _ _ s
  | schedStep => rw [beginPass_eq]; rfl
  | schedRet => rw [continuePass_eq]; rfl

/-- Settles O9: by the three kinds of step. -/
theorem configurationIsFixed : Obligations.ConfigurationIsFixed := by
  intro s t h
  obtain ⟨q, k, ⟨-, rfl⟩ | ⟨d, v, -, heff⟩ | ⟨-, rfl⟩⟩ := step_cases h
  · rw [tickStep_eq]
  · exact heff.cfg_eq
  · rfl

end Sys2Proof.Machine
end

section
/-! SUPPORT. The register window in numbers: the five gaps of its map, what a register made of fields or of
part of a wider element reads as, and the writes that are refused (spec/10_state.md R45 to R71). -/

namespace Sys2Proof.Machine

/-! Words made of parts -/

theorem toNat_append_eq_add {m n : Nat} (x : BitVec m) (y : BitVec n) :
    (x ++ y).toNat = 2 ^ n * x.toNat + y.toNat := by
  rw [BitVec.toNat_append, ← Nat.shiftLeft_add_eq_or_of_lt y.isLt, Nat.shiftLeft_eq, Nat.mul_comm]

theorem toNat_low_word {n : Nat} (x : BitVec n) :
    x.extractLsb' 0 32 = BitVec.ofNat 32 (x.toNat % 2 ^ 32) := by
  apply BitVec.eq_of_toNat_eq
  simp

theorem ctrlWord_eq (s : State) :
    ctrlWord s = BitVec.ofNat 32 (s.ieSwap.toNat + 2 * s.ieFault.toNat) := by
  have := s.ieSwap.toNat_le
  have := s.ieFault.toNat_le
  apply BitVec.eq_of_toNat_eq
  simp only [ctrlWord, toNat_append_eq_add, BitVec.toNat_ofBool, BitVec.toNat_ofNat]
  omega

theorem statusWord_eq (s : State) :
    statusWord s = BitVec.ofNat 32 (s.pending.toNat + 2 * s.active.toNat + 4 * s.swapped.toNat
      + 8 * s.sinit.toNat + 16 * s.busy.toNat + 32 * s.fault.toNat) := by
  have := s.pending.toNat_le
  have := s.active.toNat_le
  have := s.swapped.toNat_le
  have := s.sinit.toNat_le
  have := s.busy.toNat_le
  have := s.fault.toNat_le
  apply BitVec.eq_of_toNat_eq
  simp only [statusWord, toNat_append_eq_add, BitVec.toNat_ofBool, BitVec.toNat_ofNat]
  omega

theorem callWord_busy {s : State} (hb : s.busy = true) :
    callWord s = BitVec.ofNat 32 (2 ^ 31 + 2 ^ 16 * s.cur.val
      + 2 ^ 8 * s.threads[s.cur].first.toNat + s.threads[s.cur].fn.toNat) := by
  have := s.cur.isLt
  have := s.threads[s.cur].first.toNat_le
  have := s.threads[s.cur].fn.isLt
  apply BitVec.eq_of_toNat_eq
  simp only [callWord, hb, if_true, toNat_append_eq_add, BitVec.toNat_ofBool, BitVec.toNat_ofNat]
  omega

theorem callWord_idle {s : State} (hb : s.busy = false) : callWord s = 0#32 := by
  rw [callWord, if_neg (by simp [hb])]

theorem threadFnWord_eq (th : Thread) :
    threadFnWord th = BitVec.ofNat 32 (2 ^ 8 * th.first.toNat + th.fn.toNat) := by
  have := th.first.toNat_le
  have := th.fn.isLt
  apply BitVec.eq_of_toNat_eq
  simp only [threadFnWord, toNat_append_eq_add, BitVec.toNat_ofBool, BitVec.toNat_ofNat]
  omega

/-- What is read above the low word of a 40-bit element. -/
theorem high_byte_of_forty {n : Nat} (x : BitVec n) (h : x.toNat < 2 ^ 40) :
    (x.extractLsb' 32 8).setWidth 32 = BitVec.ofNat 32 (x.toNat / 2 ^ 32) := by
  apply BitVec.eq_of_toNat_eq
  simp only [BitVec.toNat_setWidth, BitVec.extractLsb'_toNat, Nat.shiftRight_eq_div_pow,
    BitVec.toNat_ofNat]
  omega

theorem high_word_of_frame (f : Frame) :
    f.extractLsb' 32 32 = BitVec.ofNat 32 (f.toNat / 2 ^ 32) := by
  apply BitVec.eq_of_toNat_eq
  simp [Nat.shiftRight_eq_div_pow]

/-! The map -/

theorem controlReg_eq_none_iff (n : Nat) : controlReg n = none ↔ 15 ≤ n := by
  constructor
  · intro h
    by_contra hn
    have : n < 15 := by omega
    interval_cases n <;> simp [controlReg] at h
  · intro h
    obtain ⟨k, rfl⟩ := Nat.exists_eq_add_of_le' h
    rfl

/-- The gaps of the map (spec/10_state.md R45): behind the control registers, the threads, the brightness,
the table and the banks. -/
theorem regOf_eq_none_iff {off : Nat} (h : off < 4096) (ha : off % 4 = 0) :
    regOf off = none ↔
      off = 0x03C ∨ (0x058 ≤ off ∧ off ≤ 0x0FC) ∨ (0x1A0 ≤ off ∧ off ≤ 0x1FC) ∨
      (0x300 ≤ off ∧ off ≤ 0x7FC) ∨ (0xC00 ≤ off ∧ off ≤ 0xFFC) := by
  unfold regOf
  rw [if_neg (by omega)]
  split
  · rw [controlReg_eq_none_iff]; omega
  · repeat' split
    all_goals simp only [reduceCtorEq, true_iff, false_iff]
    all_goals omega

/-! Writes -/

/-- The registers with a writing arm of their own are the ones that are not read-only. -/
theorem readOnly_of_ne {r : Reg} (hctrl : r ≠ .ctrl) (hstatus : r ≠ .status) (hcmd : r ≠ .cmd)
    (hdata : r ≠ .data) (hlo : r ≠ .subsetLo) (hhi : r ≠ .subsetHi) (hbr : ∀ i, r ≠ .br i) :
    readOnly r = true := by
  cases r
  case ctrl | status | cmd | data | subsetLo | subsetHi => contradiction
  case br i => exact absurd rfl (hbr i)
  all_goals rfl

theorem exec_wr_readOnly {r : Reg} (h : readOnly r = true) (v : Word) (s : State) :
    ∃ t, exec (wr r v) s = .next t ∧
      State.FaultRecorded 0x03#8 (BitVec.ofNat 32 (regOffset r + 0x14000)) s t := by
  rw [exec_wr, writeReg_readOnly h]
  exact refuseWrite_recorded .roWrite r s

theorem high_bits_ne_zero {v : Word} {n : Nat} (hn : n ≤ 32) (h : 2 ^ n ≤ v.toNat) :
    v.extractLsb' n (32 - n) ≠ 0#(32 - n) :=
  fun e => absurd ((high_bits_zero v n hn).1 e) (Nat.not_lt.2 h)

theorem subsetLo_bit (u : BitVec 40) (v : Word) (j : Nat) :
    (u.extractLsb' 32 8 ++ v : BitVec 40).getLsbD j =
      if j < 32 then v.getLsbD j else u.getLsbD j := by
  rw [BitVec.getLsbD_append, BitVec.getLsbD_extractLsb']
  by_cases h : j < 32
  · simp [h]
  · by_cases h' : j < 40
    · simp [h, show j - 32 < 8 by omega, show 32 + (j - 32) = j by omega]
    · simp [h, show ¬ j - 32 < 8 by omega, BitVec.getLsbD_of_ge u j (by omega)]

theorem getLsbD_of_lt_two_pow {v : Word} {n j : Nat} (h : v.toNat < 2 ^ n) (hj : n ≤ j) :
    v.getLsbD j = false :=
  Nat.testBit_lt_two_pow (h.trans_le (Nat.pow_le_pow_right (by decide) hj))

theorem subsetHi_bit (u : BitVec 40) {v : Word} (hv : v.toNat < 2 ^ 8) (j : Nat) :
    (v.extractLsb' 0 8 ++ u.extractLsb' 0 32 : BitVec 40).getLsbD j =
      if j < 32 then u.getLsbD j else v.getLsbD (j - 32) := by
  rw [BitVec.getLsbD_append, BitVec.getLsbD_extractLsb', BitVec.getLsbD_extractLsb']
  by_cases h : j < 32
  · simp [h]
  · by_cases h' : j - 32 < 8
    · simp [h, h']
    · simp [h, h', getLsbD_of_lt_two_pow hv (by omega : 8 ≤ j - 32)]

theorem bit_zero (v : Word) : v.getLsbD 0 = decide (v.toNat % 2 = 1) := by
  rw [getLsbD_eq_decide, pow_zero, Nat.div_one]

theorem bit_one_of_lt_four {v : Word} (h : v.toNat < 4) :
    v.getLsbD 1 = decide (2 ≤ v.toNat) := by
  rw [getLsbD_eq_decide, decide_eq_decide]
  omega

/-! Commands and `DATA` -/

@[simp] theorem beginPass_data (s : State) : (beginPass s).data = s.data := by rw [beginPass_eq]

@[simp] theorem continuePass_data (s : State) : (continuePass s).data = s.data := by
  rw [continuePass_eq]

theorem command_keeps_data {i : Instr} {s t : State} (hc : i.isCommand = true)
    (h : exec i s = .next t) : t.data = s.data := by
  cases i with
  | nop => cases h; rfl
  | render | renderList =>
    simp only [exec, execRender, execRenderList] at h
    split at h <;> cases h
    · exact raiseFault_data _ _ s
    · exact setBank_data _ _ s
  | armSwap | schedInit =>
    simp only [exec, execArmSwap, execSchedInit] at h
    split at h <;> cases h
    · exact raiseFault_data _ _ s
    · rfl
  | schedStep =>
    simp only [exec, execSchedStep] at h
    split at h <;> cases h
    · exact raiseFault_data _ _ s
    · exact beginPass_data (subtractElapsed s)
  | schedRet f =>
    simp only [exec, execSchedRet] at h
    split at h <;> cases h
    · exact continuePass_data (recordReturn f s)
    · exact raiseFault_data _ _ s
  | read | write => cases hc

theorem exec_armSwap_idle {s : State} (hp : s.pending = false) :
    exec .armSwap s = .next { s with target := s.data, pending := true } := by
  rw [exec, execArmSwap, if_neg (by simp [hp])]

theorem exec_schedRet_busy {s : State} (f : Byte) (hb : s.busy = true) :
    exec (.schedRet f) s = .next (continuePass (recordReturn f s)) := by
  rw [exec, execSchedRet, if_pos hb]

end Sys2Proof.Machine
end

section
/-! The statements of spec/10_state.md on the register window. -/

namespace Sys2Proof.Machine

/-- Settles O14: the offsets by the two directions of the map, the gaps by its ranges. -/
theorem registerMapExact : Obligations.RegisterMapExact :=
  ⟨fun _ r => ⟨eq_regOffset_of_regOf, fun h => h ▸ regOf_regOffset r⟩,
    fun _ => regOf_eq_none_iff⟩

/-- Settles O17: what is left after the seven exclusions is read-only. -/
theorem readOnlyWriteFaults : Obligations.ReadOnlyWriteFaults :=
  fun s _ v hctrl hstatus hcmd hdata hlo hhi hbr =>
    exec_wr_readOnly (readOnly_of_ne hctrl hstatus hcmd hdata hlo hhi hbr) v s

/-- Settles O18: the range check asks whether the value is below 4. -/
theorem ctrlRegister : Obligations.CtrlRegister := by
  refine ⟨fun s => ?_, fun s v hv => ?_, fun s v hv => ?_, by decide⟩
  · rw [exec_rd, readReg, ctrlWord_eq]
  · have hrange : v.extractLsb' 2 30 = 0#30 := (high_bits_zero v 2 (by omega)).2 hv
    rw [exec_wr, writeReg_ctrl, if_neg (by simp [hrange]), bit_zero, bit_one_of_lt_four hv]
  · rw [exec_wr, writeReg_ctrl, if_pos (high_bits_ne_zero (n := 2) (by omega) hv)]
    exact refuseWrite_recorded .valueRange .ctrl s

/-- Settles O19: the write is the acknowledge. -/
theorem statusRegister : Obligations.StatusRegister := by
  refine ⟨fun s => ?_, fun s v => ?_, by decide⟩
  · rw [exec_rd, readReg, statusWord_eq]
  · have hbit : (!v.getLsbD 2) = decide (v.toNat / 4 % 2 = 0) := by
      rw [getLsbD_eq_decide, ← decide_not, decide_eq_decide]
      omega
    calc exec (wr .status v) s = .next (acknowledge v s) := exec_wr .status v s
      _ = _ := by rw [acknowledge_eq, hbit]

/-- Settles O20: its two readers are ARM_SWAP and SCHED_RET, and no command writes it. -/
theorem dataRegister : Obligations.DataRegister := by
  refine ⟨exec_rd .data, fun s v => exec_wr .data v s, fun s t hp h => ?_, fun s t f hb h => ?_,
    fun s t i => command_keeps_data, rfl⟩
  · rw [exec_armSwap_idle hp] at h
    cases h
    rfl
  · rw [exec_schedRet_busy f hb] at h
    cases h
    rw [continuePass_threads, recordReturn_cur]
    rfl

/-- Settles O21: each half is written beside the other, and the high half checks its range. -/
theorem subsetRegisters : Obligations.SubsetRegisters := by
  refine ⟨fun s => ?_, fun s v => ⟨_, exec_wr .subsetLo v s, rfl, subsetLo_bit s.subset v⟩,
    fun s => ?_, fun s v hv => ?_, fun s v hv => ?_, rfl⟩
  · rw [exec_rd, readReg, toNat_low_word]
  · rw [exec_rd, readReg, high_byte_of_forty _ s.subset.isLt]
  · have hrange : v.extractLsb' 8 24 = 0#24 := (high_bits_zero v 8 (by omega)).2 hv
    rw [exec_wr, writeReg_subsetHi, if_neg (by simp [hrange])]
    exact ⟨_, rfl, rfl, subsetHi_bit s.subset hv⟩
  · rw [exec_wr, writeReg_subsetHi, if_pos (high_bits_ne_zero (n := 8) (by omega) hv)]
    exact refuseWrite_recorded .valueRange .subsetHi s

/-- Settles O22: one element of the vector is set, where the value is in range. -/
theorem brightnessRegister : Obligations.BrightnessRegister := by
  refine ⟨fun s i => ?_, fun s i v hv => ?_, fun s i v hv => ?_⟩
  · rw [exec_rd, readReg, BitVec.ofNat_toNat]
  · have hrange : v.extractLsb' 6 26 = 0#26 := (high_bits_zero v 6 (by omega)).2 hv
    rw [exec_wr, writeReg_br, if_neg (by simp [hrange])]
    refine ⟨_, rfl, rfl, ?_, fun j hj => ?_⟩
    · simpa using Nat.mod_eq_of_lt hv
    · simp only [Fin.getElem_fin, Vector.getElem_set]
      rw [if_neg fun e => hj (Fin.ext e.symm)]
  · rw [exec_wr, writeReg_br, if_pos (high_bits_ne_zero (n := 6) (by omega) hv)]
    have hinfo : 0x14100 + 4 * i.val = regOffset (.br i) + 0x14000 := by rw [regOffset]; omega
    rw [hinfo]
    exact refuseWrite_recorded .valueRange (.br i) s

/-- Settles O23: `CALL` is made of the current thread's entry while a call is outstanding. -/
theorem callRegister : Obligations.CallRegister := by
  refine ⟨fun s hb => ?_, fun s hb => ?_, fun s v => exec_wr_readOnly (r := .call) rfl v s⟩
  · rw [exec_rd, readReg, callWord_busy hb]
  · rw [exec_rd, readReg, callWord_idle hb]

/-- Settles O24: both words of a thread's entry, and both registers read-only. -/
theorem threadRegisters : Obligations.ThreadRegisters := by
  refine ⟨fun s t => exec_rd (.threadRem t) s, fun s t => ?_, fun s t v => ?_, fun s t v => ?_⟩
  · rw [exec_rd, readReg, threadFnWord_eq]
  · have hinfo : 0x14040 + 8 * t.val = regOffset (.threadRem t) + 0x14000 := by
      rw [regOffset]; omega
    rw [hinfo]
    exact exec_wr_readOnly rfl v s
  · have hinfo : 0x14044 + 8 * t.val = regOffset (.threadFn t) + 0x14000 := by
      rw [regOffset]; omega
    rw [hinfo]
    exact exec_wr_readOnly rfl v s

/-- Settles O25: the two words of a frame, the high one below 256 by the invariant's zeros. -/
theorem bankWindow : Obligations.BankWindow := by
  refine ⟨fun s k p => ?_, fun s k p => ?_, fun s k p hs => ?_, fun s k p hi v => ?_⟩
  · rw [← toNat_low_word]
    exact exec_rd (.bank k p false) s
  · rw [← high_word_of_frame]
    exact exec_rd (.bank k p true) s
  · obtain ⟨hframes, -⟩ := hs
    have := frame_clean_lt _ (bank_clean hframes k p)
    omega
  · have hinfo : 0x14800 + 0x200 * k.toNat + 8 * p.val + 4 * hi.toNat
        = regOffset (.bank k p hi) + 0x14000 := by
      rw [regOffset]; omega
    rw [hinfo]
    exact exec_wr_readOnly rfl v s

/-- Settles O26: each register's word, `LATCH_HI` by the invariant's zeros. -/
theorem otherReadValues : Obligations.OtherReadValues := by
  intro s
  refine ⟨exec_rd .id s, exec_rd .result s, exec_rd .tick s, exec_rd .target s, ?_,
    exec_rd .faultInfo s, ?_, fun hs => ?_, fun b => ?_, exec_rd .cmd s⟩
  · rw [exec_rd, readReg, BitVec.ofNat_toNat]
  · rw [exec_rd, readReg, toNat_low_word]
  · obtain ⟨⟨-, -, -, hlatch⟩, -⟩ := hs
    rw [exec_rd, readReg, high_byte_of_forty _ (frame_clean_lt _ hlatch)]
  · rw [exec_rd, readReg, BitVec.ofNat_toNat]

end Sys2Proof.Machine
end

section
/-! SUPPORT. Who writes what (spec/20_memory.md R82, R90): which accesses are admitted and what the others
do, the elements of the swap arbiter and the tick sequencer under the host's operations, and the swap's
flags under a tick. -/

namespace Sys2Proof.Machine

/-! Accesses -/

/-- An access is admitted with 4 bytes at the offset of a register (spec/20_memory.md R82). -/
theorem admitted_isSome_iff (z : AccessSize) (off : Nat) :
    (admitted z off).isSome = true ↔ z = .four ∧ off % 4 = 0 ∧ ∃ r, off = regOffset r := by
  constructor
  · intro h
    obtain ⟨r, hr⟩ := Option.isSome_iff_exists.1 h
    obtain ⟨hz, rfl⟩ := admitted_eq_some hr
    exact ⟨hz, regOffset_aligned r, r, rfl⟩
  · rintro ⟨rfl, -, r, rfl⟩
    rw [admitted_regOffset, Option.isSome_some]

theorem admitted_eq_none {z : AccessSize} {off : Nat}
    (h : ¬(z = .four ∧ off % 4 = 0 ∧ ∃ r, off = regOffset r)) : admitted z off = none := by
  rwa [← admitted_isSome_iff, Option.not_isSome_iff_eq_none] at h

theorem exec_read_refused {z : AccessSize} {off : Nat} (h : admitted z off = none) (s : State) :
    exec (.read z off) s =
      .next { raiseFault .badAccess (busInfo false z off) s with rdata := 0#32 } := by
  simp only [exec, execRead, h]

theorem exec_write_refused {z : AccessSize} {off : Nat} (h : admitted z off = none) (v : Word)
    (s : State) :
    exec (.write z off v) s = .next (raiseFault .badAccess (busInfo true z off) s) := by
  simp only [exec, execWrite, h]

/-- Recording a fault neither looks at nor changes what the last READ returned. -/
theorem raiseFault_rdata_comm (c : FaultCode) (w v : Word) (s : State) :
    { raiseFault c w s with rdata := v } = raiseFault c w { s with rdata := v } := by
  rw [raiseFault_eq, raiseFault_eq]

/-! The arbiter's and the sequencer's part of the state -/

/-- What the swap arbiter and the tick sequencer work on. -/
structure SwapPart where
  active : Bool
  pending : Bool
  target : Word
  tick : Word
  shift : Frame
  latch : Frame
  swapped : Bool

def State.swapPart (s : State) : SwapPart :=
  ⟨s.active, s.pending, s.target, s.tick, s.shift, s.latch, s.swapped⟩

@[simp] theorem raiseFault_swapPart (c : FaultCode) (w : Word) (s : State) :
    (raiseFault c w s).swapPart = s.swapPart := by
  rw [raiseFault_eq]; rfl

@[simp] theorem setBank_swapPart (k : Bool) (b : Bank) (s : State) :
    (setBank k b s).swapPart = s.swapPart := by
  rw [setBank_eq]; rfl

@[simp] theorem beginPass_swapPart (s : State) : (beginPass s).swapPart = s.swapPart := by
  rw [beginPass_eq]; rfl

@[simp] theorem continuePass_swapPart (s : State) : (continuePass s).swapPart = s.swapPart := by
  rw [continuePass_eq]; rfl

/-- Of the host's operations, only ARM_SWAP with nothing pending and the acknowledge of `SWAPPED` touch the
arbiter's and the sequencer's part. -/
theorem HostEffect.swapPart_cases {i : Instr} {s t : State} (h : HostEffect i s t) :
    t.swapPart = s.swapPart ∨
    (s.pending = false ∧ t = { s with target := s.data, pending := true }) ∨
    t = { s with swapped := false } := by
  cases h with
  | arm hc hp => exact .inr (.inl ⟨hp, rfl⟩)
  | ack => exact .inr (.inr rfl)
  | fault c w => exact .inl (raiseFault_swapPart c w s)
  | readFault z o w => exact .inl (raiseFault_swapPart .badAccess w s)
  | read | unchanged | ctrl | data | subset | br | schedInit => exact .inl rfl
  | render | renderList => exact .inl (setBank_swapPart _ _ s)
  | schedStep => exact .inl (beginPass_swapPart (subtractElapsed s))
  | schedRet f => exact .inl (continuePass_swapPart (recordReturn f s))

/-! The swap's flags under a tick -/

theorem pending_of_tickStep_pending {s : State} (h : (tickStep s).pending = true) :
    s.pending = true := by
  rcases tickStep_swap s with ⟨-, -, -, hclear, -⟩ | ⟨-, -, hkeep, -⟩
  · exact absurd (hclear.symm.trans h) nofun
  · exact hkeep.symm.trans h

theorem tickStep_swapped_of_swapped {s : State} (h : s.swapped = true) :
    (tickStep s).swapped = true := by
  rcases tickStep_swap s with ⟨-, -, -, -, hset⟩ | ⟨-, -, -, hkeep⟩
  · exact hset
  · exact hkeep.trans h

end Sys2Proof.Machine
end

section
/-! The statements of spec/20_memory.md. -/

namespace Sys2Proof.Machine

/-- Settles O16: what is not admitted records the bus layout of the access, and a READ returns 0. -/
theorem badAccessFaults : Obligations.BadAccessFaults := by
  refine ⟨admitted_isSome_iff, fun s z off hoff h => ?_⟩
  have hnone := admitted_eq_none h
  have hread := busInfo_eq false z off hoff
  have hwrite := busInfo_eq true z off hoff
  refine ⟨⟨_, exec_read_refused hnone s, ?_⟩, fun v => ⟨_, exec_write_refused hnone v s, ?_⟩⟩
  · rw [raiseFault_rdata_comm, hread]
    exact raiseFault_recorded .badAccess _ _
  · rw [hwrite]
    exact raiseFault_recorded .badAccess _ s

/-- Settles O43: the host's side by the two operations that touch the arbiter's part at all, the tick's side
by the fields a tick may write. -/
theorem fieldOwnership : Obligations.FieldOwnership := by
  refine ⟨fun s t i h => ?_, fun s => ?_⟩
  · rcases (exec_effect h).swapPart_cases with hsame | ⟨hidle, rfl⟩ | rfl
    · simp only [State.swapPart, SwapPart.mk.injEq] at hsame
      obtain ⟨hactive, hpending, htarget, htick, hshift, hlatch, hswapped⟩ := hsame
      exact ⟨hactive, htick, hshift, hlatch, fun hp => ⟨hpending.trans hp, htarget⟩,
        fun hs => hswapped.symm.trans hs⟩
    · exact ⟨rfl, rfl, rfl, rfl, fun hp => absurd (hidle.symm.trans hp) nofun, id⟩
    · exact ⟨rfl, rfl, rfl, rfl, fun hp => ⟨hp, rfl⟩, nofun⟩
  · have hpending := pending_of_tickStep_pending (s := s)
    have hswapped := tickStep_swapped_of_swapped (s := s)
    rw [tickStep_eq]
    exact ⟨rfl, rfl, rfl, rfl, rfl, rfl, rfl, rfl, rfl, rfl, rfl, rfl, rfl, rfl, hpending, hswapped⟩

end Sys2Proof.Machine
end

section
/-! SUPPORT. The encoded forms in both directions (spec/30_encoding.md R101 to R106): which word a decoded
command has, the fields of a command's word, and an access and its descriptor. -/

namespace Sys2Proof

/-! Command words -/

theorem encode_of_isCommand {i : Instr} (hc : i.isCommand = true) :
    encode i = .command (commandWord i) := by
  cases i
  case read | write => cases hc
  all_goals rfl

theorem decode_encode_command {i : Instr} (hc : i.isCommand = true) :
    decode (encode i) = some i := by
  rw [encode_of_isCommand hc, decode, decodeCommand_commandWord hc]

/-- The arms of the decoder, row by row: each answers with the command whose word has matched. -/
theorem encode_of_decodeCommand {w : Word} {i : Instr} (h : decodeCommand w = some i) :
    encode i = .command w := by
  unfold decodeCommand at h
  simp only [and_full] at h
  iterate 6
    split at h
    · next hw => cases h; rw [hw, encode]
  split at h
  · next hw => cases h; rw [encode, ← (schedRet_row w).1 hw]
  · cases h

theorem decodeCommand_eq_some_iff {w : Word} {i : Instr} :
    decodeCommand w = some i ↔ i.isCommand = true ∧ encode i = .command w := by
  refine ⟨fun h => ⟨decodeCommand_isCommand h, encode_of_decodeCommand h⟩, fun ⟨hc, hw⟩ => ?_⟩
  rw [encode_of_isCommand hc, HostWord.command.injEq] at hw
  rw [← hw, decodeCommand_commandWord hc]

/-- The word of a command has one of the seven opcodes, and its reserved bits are 0 (spec/30_encoding.md
R101): bits 23:8 beside the tag of a SCHED_RET, and bits 23:0 elsewhere. -/
theorem encode_command_fields {i : Instr} {w : Word} (h : encode i = .command w) :
    w.extractLsb' 24 8 ∈ [0x00#8, 0x01#8, 0x02#8, 0x10#8, 0x20#8, 0x21#8, 0x22#8] ∧
    (w.extractLsb' 24 8 = 0x22#8 → w.extractLsb' 8 16 = 0#16) ∧
    (w.extractLsb' 24 8 ≠ 0x22#8 → w.extractLsb' 0 24 = 0#24) := by
  cases i
  case schedRet f =>
    cases h
    rw [schedRet_opcode, schedRet_reserved]
    exact ⟨by decide, fun _ => rfl, fun hne => absurd rfl hne⟩
  all_goals cases h
  all_goals decide

theorem decodeCommand_illegal {w : Word}
    (h : w.extractLsb' 24 8 ∉ [0x00#8, 0x01#8, 0x02#8, 0x10#8, 0x20#8, 0x21#8, 0x22#8] ∨
      (w.extractLsb' 24 8 = 0x22#8 ∧ w.extractLsb' 8 16 ≠ 0#16) ∨
      (w.extractLsb' 24 8 ≠ 0x22#8 ∧ w.extractLsb' 0 24 ≠ 0#24)) :
    decodeCommand w = none := by
  rw [Option.eq_none_iff_forall_ne_some]
  intro i hi
  obtain ⟨hop, htag, hzero⟩ := encode_command_fields (encode_of_decodeCommand hi)
  rcases h with hunknown | ⟨hret, hset⟩ | ⟨hother, hset⟩
  · exact hunknown hop
  · exact hset (htag hret)
  · exact hset (hzero hother)

/-! Descriptors -/

theorem decodeBus_encodeBus (b : Bool) (z : AccessSize) {off : Nat} (hoff : off < windowBytes)
    (v : Word) :
    decodeBus (encodeBus b z off) v = if b then .write z off v else .read z off := by
  rw [decodeBus, encodeBus, descriptor_kind, descriptor_size, descriptor_offset,
    decodeSize_encodeSize, BitVec.toNat_ofNat, Nat.mod_eq_of_lt hoff]

theorem decodeBus_wf (d : Descriptor) (v : Word) : (decodeBus d v).WellFormed := by
  have hoff : (d.extractLsb' 0 12).toNat < windowBytes := (d.extractLsb' 0 12).isLt
  unfold decodeBus
  split <;> exact decide_eq_true hoff

/-- A descriptor is made of its own kind, size and offset. -/
theorem encodeBus_fields (d : Descriptor) :
    encodeBus (d.getLsbD 14) (decodeSize (d.extractLsb' 12 2)) (d.extractLsb' 0 12).toNat = d := by
  rw [encodeBus, encodeSize_decodeSize, BitVec.ofNat_toNat, BitVec.setWidth_eq]
  exact (descriptor_fields d).symm

theorem encode_decodeBus (d : Descriptor) (v : Word) :
    encode (decodeBus d v) = .bus d (if d.getLsbD 14 then v else 0#32) := by
  have hd := encodeBus_fields d
  unfold decodeBus
  split
  · next hwrite => rw [encode, ← hwrite, hd]
  · next hread => rw [encode, ← Bool.eq_false_iff.2 hread, hd]

end Sys2Proof
end

section
/-! SUPPORT. A write of `CMD` (spec/30_encoding.md R104), and what `subset m` and RENDER_LIST leave
(spec/30_encoding.md R109; spec/41_renderer.md R153). -/

namespace Sys2Proof.Machine

theorem exec_writeCmd (w : Word) (s : State) :
    exec (.write .four 0x00C w) s = execCommandWord w s := exec_wr .cmd w s

theorem exec_writeCmd_of_some {w : Word} {i : Instr} (hw : decodeCommand w = some i) (s : State) :
    exec (.write .four 0x00C w) s = exec i s := by
  rw [exec_writeCmd]
  rcases execCommandWord_cases w s with ⟨j, hj, -, hexec⟩ | ⟨hnone, -⟩
  · rw [hw, Option.some.injEq] at hj
    rw [hj, hexec]
  · rw [hw] at hnone
    cases hnone

theorem exec_writeCmd_of_none {w : Word} (hw : decodeCommand w = none) (s : State) :
    ∃ t, exec (.write .four 0x00C w) s = .next t ∧ State.FaultRecorded 0x01#8 w s t := by
  rw [exec_writeCmd]
  rcases execCommandWord_cases w s with ⟨j, hj, -, -⟩ | ⟨-, hexec⟩
  · rw [hw] at hj
    cases hj
  · exact ⟨_, hexec, raiseFault_recorded .illegalCmd w s⟩

/-! `subset m` -/

theorem high_byte_lt (m : BitVec 40) : ((m.extractLsb' 32 8).setWidth 32 : Word).toNat < 2 ^ 8 := by
  rw [BitVec.toNat_setWidth_of_le (by decide)]
  exact (m.extractLsb' 32 8).isLt

/-- The low word of m, written beside anything, and then its high byte beside that low word. -/
theorem subset_of_halves (u m : BitVec 40) :
    (((m.extractLsb' 32 8).setWidth 32 : Word).extractLsb' 0 8
      ++ (u.extractLsb' 32 8 ++ m.extractLsb' 0 32 : BitVec 40).extractLsb' 0 32 : BitVec 40) = m := by
  apply BitVec.eq_of_getLsbD_eq
  intro j hj
  rw [subsetHi_bit _ (high_byte_lt m), subsetLo_bit]
  by_cases h : j < 32
  · simp [h]
  · have hbit : j - 32 < 8 ∧ j - 32 < 32 ∧ 32 + (j - 32) = j := by omega
    simp [h, hbit]

theorem runAll_pseudoSubset (m : BitVec 40) (s : State) :
    runAll (pseudoSubset m) s = .next { s with subset := m } := by
  have hrange : ((m.extractLsb' 32 8).setWidth 32 : Word).extractLsb' 8 24 = 0#24 :=
    (high_bits_zero _ 8 (by decide)).2 (high_byte_lt m)
  have hlo : exec (wr .subsetLo (m.extractLsb' 0 32)) s =
      .next { s with subset := s.subset.extractLsb' 32 8 ++ m.extractLsb' 0 32 } :=
    exec_wr .subsetLo _ s
  simp only [pseudoSubset, runAll, hlo, exec_wr, writeReg_subsetHi, hrange, ne_eq,
    not_true_eq_false, if_false, subset_of_halves]

/-! RENDER_LIST with no swap pending -/

/-- The state with the LEDs of `SUBSET` rasterized into the inactive bank. -/
def rasterizeSubset (s : State) : State :=
  setBank (!s.active) (Vector.ofFn fun p => renderListFrame s p (s.bank (!s.active))[p]) s

theorem exec_renderList_idle {s : State} (hp : s.pending = false) :
    exec .renderList s = .next (rasterizeSubset s) := by
  rw [exec, execRenderList, if_neg (by simp [hp]), rasterizeSubset]

theorem ledBit_setBank_same (k : Bool) (b : Bank) (s : State) (p : Fin 64) (i : Nat) :
    (setBank k b s).ledBit k p i = b[p].getLsbD i := by
  rw [State.ledBit, setBank_same]

theorem rasterizeSubset_ledBit (s : State) (p : Fin 64) (i : Nat) :
    (rasterizeSubset s).ledBit (!s.active) p i =
      (renderListFrame s p (s.bank (!s.active))[p]).getLsbD i := by
  rw [rasterizeSubset, ledBit_setBank_same, Fin.getElem_fin, Vector.getElem_ofFn]

theorem rasterizeSubset_ledBit_inside {s : State} (p : Fin 64) {i : Fin 40}
    (hi : s.subset.getLsbD i.val = true) :
    (rasterizeSubset s).ledBit (!s.active) p i.val =
      decide (p.val < (pulseLength s.cfg s.br[i]).toNat) := by
  rw [rasterizeSubset_ledBit, renderListFrame_bit, dif_pos i.isLt, if_pos hi, ledOn]

theorem rasterizeSubset_ledBit_outside {s : State} (p : Fin 64) {i : Nat}
    (hi : s.subset.getLsbD i = false) :
    (rasterizeSubset s).ledBit (!s.active) p i = s.ledBit (!s.active) p i := by
  rw [rasterizeSubset_ledBit, renderListFrame_bit, hi]
  split <;> rfl

theorem runAll_pseudoRenderList (m : BitVec 40) {s : State} (hp : s.pending = false) :
    runAll (pseudoRenderList m) s = .next (rasterizeSubset { s with subset := m }) := by
  have hrender : exec (wrCommand .renderList) { s with subset := m } =
      .next (rasterizeSubset { s with subset := m }) :=
    (exec_wrCommand rfl _).trans (exec_renderList_idle hp)
  rw [pseudoRenderList, runAll_append _ _ _ _ (runAll_pseudoSubset m s)]
  simp only [runAll, hrender]

end Sys2Proof.Machine
end

section
/-! The statements of spec/30_encoding.md. -/

namespace Sys2Proof.Machine

/-- Settles O1: the commands by their words, the accesses by the fields of their descriptors. -/
theorem decodeEncodeRoundTrip : Obligations.DecodeEncodeRoundTrip := by
  intro i hwf
  cases i with
  | nop | render | renderList | armSwap | schedInit | schedStep | schedRet =>
    exact decode_encode_command rfl
  | read z off =>
    exact congrArg some (decodeBus_encodeBus false z (of_decide_eq_true hwf) 0#32)
  | write z off v =>
    exact congrArg some (decodeBus_encodeBus true z (of_decide_eq_true hwf) v)

/-- Settles O2: one direction by the rows of the decoder, the other by the word of each command. -/
theorem commandWordsExact : Obligations.CommandWordsExact :=
  fun _ _ => decodeCommand_eq_some_iff

/-- Settles O3: a descriptor is made of the three fields that the decoder takes from it. -/
theorem descriptorsExact : Obligations.DescriptorsExact :=
  fun d v => ⟨decodeBus_wf d v, encode_decodeBus d v⟩

/-- Settles O27: by the two things a write of `CMD` can be. -/
theorem cmdWriteIsTheCommand : Obligations.CmdWriteIsTheCommand :=
  ⟨fun s _ _ hw => exec_writeCmd_of_some hw s, fun s _ hw => exec_writeCmd_of_none hw s⟩

/-- Settles O28: no command has such a word, so the word decodes to none. -/
theorem illegalWordFaults : Obligations.IllegalWordFaults :=
  fun s _ hw => exec_writeCmd_of_none (decodeCommand_illegal hw) s

/-- Settles O59: the mask is written, and then its LEDs are rasterized. -/
theorem renderListSequence : Obligations.RenderListSequence := by
  intro s m hp
  refine ⟨_, runAll_pseudoRenderList m hp, ?_, ?_, fun p i hi => ?_, fun p i hi => ?_⟩
  · exact setBank_subset _ _ _
  · exact setBank_fault _ _ _
  · exact rasterizeSubset_ledBit_inside p hi
  · exact rasterizeSubset_ledBit_outside p hi

/-- Settles O4: each word is a literal, which the decoder evaluates. -/
theorem sampleWordsDecode : Obligations.SampleWordsDecode := by
  unfold Obligations.SampleWordsDecode
  decide

end Sys2Proof.Machine
end

section
/-! SUPPORT. What `begin_pass()` and each command of the scheduler do, and which host operations touch `LAST`
and `BUSY` (spec/40_scheduler.md R123 to R130). -/

namespace Sys2Proof.Machine

/-! `begin_pass()` -/

theorem minRem_ne_zero_iff (s : State) :
    minRem s ≠ 0#32 ↔ ∀ i : Fin 3, s.threads[i].rem ≠ 0#32 := by
  simp only [ne_eq, minRem_eq_zero_iff, not_exists]

theorem zeroRem_ne_zero {s : State} (h : minRem s = 0#32) : zeroRem s ≠ 0#3 := by
  obtain ⟨i, hi⟩ := (minRem_eq_zero_iff s).1 h
  exact due_ne_zero _ i ((zeroRem_bit s i).2 hi)

theorem passBegun_beginPass (s : State) : s.PassBegun (beginPass s) := by
  refine ⟨fun h => ?_, fun h => ?_, beginPass_eq s⟩
  · rw [beginPass_completes ((minRem_ne_zero_iff s).2 h)]
    exact ⟨rfl, rfl, rfl, minRem_spec s⟩
  · have hmin := (minRem_eq_zero_iff s).2 h
    rw [beginPass_opens hmin]
    exact ⟨rfl, rfl, zeroRem_bit s, lowest_spec _ (zeroRem_ne_zero hmin)⟩

/-- A step that `begin_pass()` completes has the least delay as its result, which is not 0. -/
theorem beginPass_minimum {s : State}
    (h : (beginPass s).last ≠ s.last ∨ (beginPass s).busy = false) :
    (beginPass s).busy = false ∧ (beginPass s).last ≠ 0#32 ∧
      (∀ j : Fin 3, (beginPass s).last ≤ (beginPass s).threads[j].rem) ∧
      ∃ j : Fin 3, (beginPass s).last = (beginPass s).threads[j].rem := by
  by_cases hmin : minRem s = 0#32
  · rw [beginPass_opens hmin] at h
    exact absurd h (by simp)
  · rw [beginPass_completes hmin]
    exact ⟨rfl, hmin, minRem_spec s⟩

@[simp] theorem beginPass_br (s : State) : (beginPass s).br = s.br := by rw [beginPass_eq]

@[simp] theorem continuePass_br (s : State) : (continuePass s).br = s.br := by rw [continuePass_eq]

@[simp] theorem continuePass_fault (s : State) : (continuePass s).fault = s.fault := by
  rw [continuePass_eq]

/-! The commands, with and without a call outstanding -/

theorem exec_schedInit_idle {s : State} (hb : s.busy = false) :
    exec .schedInit s = .next { s with
      threads := Vector.ofFn fun t => ⟨s.cfg.initFn[t], true, initDelay[t]⟩
      last := 0#32
      due := 0#3
      cur := 0
      sinit := true } := by
  rw [exec, execSchedInit, if_neg (by simp [hb])]

theorem exec_schedInit_busy {s : State} (hb : s.busy = true) :
    exec .schedInit s = .next (raiseFault .schedProtocol (commandWord .schedInit) s) := by
  rw [exec, execSchedInit, if_pos hb]

theorem exec_schedStep_idle {s : State} (hi : s.sinit = true) (hb : s.busy = false) :
    exec .schedStep s = .next (beginPass (subtractElapsed s)) := by
  rw [exec, execSchedStep, if_neg (by simp [hi, hb])]

theorem exec_schedStep_refused {s : State} (h : s.sinit = false ∨ s.busy = true) :
    exec .schedStep s = .next (raiseFault .schedProtocol (commandWord .schedStep) s) := by
  rw [exec, execSchedStep, if_pos (by simpa using h)]

theorem exec_schedRet_idle {s : State} (f : Byte) (hb : s.busy = false) :
    exec (.schedRet f) s = .next (raiseFault .schedProtocol (commandWord (.schedRet f)) s) := by
  rw [exec, execSchedRet, if_neg (by simp [hb])]

/-! The return from a call -/

theorem returnedThread_first_iff (f : Byte) (s : State) :
    (returnedThread f s).first = true ↔ f ≠ s.threads[s.cur].fn := by
  simp [returnedThread]

theorem without_self (d : BitVec 3) (c : Fin 3) : (without d c).getLsbD c.val = false := by
  rw [Bool.eq_false_iff, ne_eq, without_bit]
  exact fun h => h.2 rfl

/-- With a thread left without a delay, `continuePass` keeps the step open. -/
theorem continuePass_open {s : State} (hb : s.busy = true) (h : minRem s = 0#32) :
    (continuePass s).busy = true ∧ (continuePass s).last = s.last := by
  by_cases hd : s.due = 0#3
  · rw [continuePass_ends hd, beginPass_opens h]
    exact ⟨rfl, rfl⟩
  · rw [continuePass_calls hd]
    exact ⟨hb, rfl⟩

theorem minRem_recordReturn_of_zero {s : State} (f : Byte) (hd : s.data = 0#32) :
    minRem (recordReturn f s) = 0#32 := by
  refine (minRem_eq_zero_iff _).2 ⟨s.cur, ?_⟩
  rw [recordReturn_cur, returnedThread, hd]

/-- A call that returns delay 0 leaves the step open (spec/40_scheduler.md R130). -/
theorem return_zero_open {s : State} (f : Byte) (hb : s.busy = true) (hd : s.data = 0#32) :
    (continuePass (recordReturn f s)).busy = true ∧
      (continuePass (recordReturn f s)).last = s.last :=
  continuePass_open (s := recordReturn f s) hb (minRem_recordReturn_of_zero f hd)

/-! What the host's operations do to `LAST` and `BUSY` -/

/-- Of the host's operations, only the three commands of the scheduler touch `LAST` and `BUSY`. -/
theorem HostEffect.last_busy_cases {i : Instr} {s t : State} (h : HostEffect i s t) :
    (t.last = s.last ∧ t.busy = s.busy) ∨ Issues i .schedInit ∨
    (s.busy = false ∧ t = beginPass (subtractElapsed s)) ∨
    ∃ f, t = continuePass (recordReturn f s) := by
  cases h with
  | schedInit hc => exact .inr (.inl hc)
  | schedStep hc hi hb => exact .inr (.inr (.inl ⟨hb, rfl⟩))
  | schedRet f => exact .inr (.inr (.inr ⟨f, rfl⟩))
  | fault c w => exact .inl ⟨raiseFault_last c w s, raiseFault_busy c w s⟩
  | readFault z o w => exact .inl ⟨raiseFault_last _ w s, raiseFault_busy _ w s⟩
  | render | renderList => exact .inl ⟨setBank_last _ _ s, setBank_busy _ _ s⟩
  | read | unchanged | ctrl | ack | data | subset | br | arm => exact .inl ⟨rfl, rfl⟩

/-- The two instructions that issue SCHED_INIT. -/
theorem issues_schedInit {i : Instr} (h : Issues i .schedInit) :
    i = .schedInit ∨ i = .write .four 0x00C 0x20000000#32 := by
  obtain h | ⟨w, rfl, hw⟩ := h
  · exact .inl h
  · cases encode_of_decodeCommand hw
    exact .inr rfl

end Sys2Proof.Machine
end

section
/-! SUPPORT. A host that serves calls without end (spec/40_scheduler.md R132). -/

namespace Sys2Proof.Machine

/-! Served calls -/

theorem serveCalls_none_of_zero_delays {σ : Type} (eff : Effects σ) (gap : Nat → Nat)
    (hzero : ∀ c y, (eff c y).delay = 0#32) (n : Nat) {h : HostRun} (x : σ)
    (calls : List EffectCall) (hb : h.state.busy = true) :
    serveCalls eff gap n h x calls = none := by
  induction n generalizing h x calls with
  | zero =>
    obtain ⟨-, -, hnone, -⟩ := serveCalls_call eff gap h x calls hb
    exact hnone
  | succ n ih =>
    obtain ⟨h', hsched, -, hserve⟩ := serveCalls_call eff gap h x calls hb
    have hopen : h'.state.busy = true := by
      refine (congrArg SchedPart.busy hsched).trans (return_zero_open _ ?_ ?_).1
      · exact hb
      · exact hzero _ _
    rw [hserve, ih _ _ hopen]

/-- Brightness writes record no fault. -/
theorem setbr_accesses_keep_fault (gap : Nat → Nat) {l : List EffectAction}
    (hset : ∀ a ∈ l, a.isSetbr = true) (h : HostRun) :
    ∃ h', hostAccesses gap (l.flatMap EffectAction.accesses) h = some h' ∧
      h'.state.busy = h.state.busy ∧ h'.state.fault = h.state.fault := by
  refine hostAccesses_keep (P := fun t => t.busy = h.state.busy ∧ t.fault = h.state.fault)
    (fun s hs => ?_) (fun i hi s hs => ?_) gap ⟨rfl, rfl⟩
  · rw [tickStep_eq]
    exact hs
  · obtain ⟨a, ha, hia⟩ := List.mem_flatMap.1 hi
    cases a with
    | setbr j v =>
      rw [List.mem_singleton.1 hia]
      exact ⟨_, exec_setbr j v s, hs⟩
    | render | renderList | arm => exact absurd (hset _ ha) nofun

@[simp] theorem ticks_busy (n : Nat) (s : State) : (ticks n s).busy = s.busy := by
  rw [ticks_eq]

@[simp] theorem ticks_fault (n : Nat) (s : State) : (ticks n s).fault = s.fault := by
  rw [ticks_eq]

/-- `ret` records no fault where a call is outstanding. -/
theorem ret_keeps_fault (gap : Nat → Nat) (f : Byte) (d : Word) {h : HostRun}
    (hb : h.state.busy = true) :
    ∃ h', hostAccesses gap (pseudoRet f d) h = some h' ∧ h'.state.fault = h.state.fault := by
  have hdata : hostAccess gap (wr .data d) h =
      some ⟨{ ticks (gap h.made) h.state with data := d }, h.made + 1⟩ :=
    hostAccess_eq (exec_wr .data d _)
  have hbusy : (ticks (gap (h.made + 1))
      { ticks (gap h.made) h.state with data := d }).busy = true :=
    (ticks_busy _ _).trans ((ticks_busy _ _).trans hb)
  simp only [pseudoRet, hostAccesses, hdata, Option.bind_some]
  rw [hostAccess_eq ((exec_wrCommand rfl _).trans (exec_schedRet_busy f hbusy))]
  refine ⟨_, rfl, (continuePass_fault _).trans ?_⟩
  exact (ticks_fault _ _).trans (ticks_fault _ _)

theorem effect_keeps_fault {σ : Type} (gap : Nat → Nat) {r : EffectReturn σ} {h h' : HostRun}
    (hset : ∀ a ∈ r.actions, a.isSetbr = true) (hb : h.state.busy = true)
    (he : hostAccesses gap (effectAccesses r) h = some h') : h'.state.fault = h.state.fault := by
  obtain ⟨h₁, e₁, hbusy, hfault₁⟩ := setbr_accesses_keep_fault gap hset h
  obtain ⟨h₂, e₂, hfault₂⟩ := ret_keeps_fault gap r.fn r.delay (hbusy.trans hb)
  rw [effectAccesses, hostAccesses_append, e₁, Option.bind_some, e₂, Option.some.injEq] at he
  rw [← he, hfault₂, hfault₁]

/-! Rounds without end -/

/-- The host that returns the tag f in every round, before the round's tick. -/
def returnRound (f : Byte) : Later := .repeated [.access 0x600C#15 (commandWord (.schedRet f))]

/-- The state n steps after s, in the run in which delay 0 is returned over and over. -/
def State.ZeroReturns (f : Byte) (s : State) (n : Nat) (t : State) : Prop :=
  t.busy = true ∧ t.data = 0#32 ∧ t.fault = s.fault ∧ t.last = s.last ∧
  t.later = returnRound f ∧ t.inputs = (if n % 2 = 0 then [] else [.tick]) ∧
  t.tick = s.tick + BitVec.ofNat 32 (n / 2)

/-- A round begins with the return. -/
theorem step_return {s : State} {f : Byte} (hb : s.busy = true) (hin : s.inputs = [])
    (hl : s.later = returnRound f) :
    step s = .next (continuePass (recordReturn f
      { s with inputs := [.tick], rounds := s.rounds + 1 })) := by
  have hround : hostRound s = [.access 0x600C#15 (commandWord (.schedRet f))] := by
    rw [hostRound, hl, returnRound]
  have hnext : nextEvent s = (.access 0x600C#15 (commandWord (.schedRet f)),
      { s with inputs := [.tick], rounds := s.rounds + 1 }) := by
    simp only [nextEvent, hin, hround, List.nil_append]
  rw [step, hnext]
  exact (exec_writeCmd_of_some (decodeCommand_commandWord rfl) _).trans (exec_schedRet_busy f hb)

/-- A listed tick is taken. -/
theorem step_tick {s : State} {rest : List Event} (hin : s.inputs = .tick :: rest) :
    step s = .next (tickStep { s with inputs := rest }) := by
  rw [step, nextEvent, hin]

theorem zeroReturns_step {f : Byte} {s t : State} {n : Nat} (h : s.ZeroReturns f n t) :
    ∃ u, step t = .next u ∧ s.ZeroReturns f (n + 1) u := by
  obtain ⟨hb, hd, hfault, hlast, hl, hin, htick⟩ := h
  rcases Nat.mod_two_eq_zero_or_one n with hn | hn
  · rw [if_pos hn] at hin
    obtain ⟨hopen, hkept⟩ := return_zero_open f
      (s := { t with inputs := [.tick], rounds := t.rounds + 1 }) hb hd
    refine ⟨_, step_return hb hin hl, ?_⟩
    have hhalf : (n + 1) / 2 = n / 2 := by omega
    rw [State.ZeroReturns, continuePass_eq, if_neg (by omega), hhalf]
    exact ⟨hopen, hd, hfault, hkept.trans hlast, hl, rfl, htick⟩
  · rw [if_neg (by omega)] at hin
    refine ⟨_, step_tick hin, ?_⟩
    have hhalf : (n + 1) / 2 = n / 2 + 1 := by omega
    rw [State.ZeroReturns, tickStep_eq, if_pos (by omega), hhalf, BitVec.ofNat_add, htick]
    exact ⟨hb, hd, hfault, hlast, hl, rfl, BitVec.add_assoc _ _ _⟩

theorem zeroReturns_steps {f : Byte} {s : State} (h : s.ZeroReturns f 0 s) (n : Nat) :
    ∃ t, steps n s = some t ∧ s.ZeroReturns f n t := by
  induction n with
  | zero => exact ⟨s, rfl, h⟩
  | succ n ih =>
    obtain ⟨t, hrun, ht⟩ := ih
    obtain ⟨u, hstep, hu⟩ := zeroReturns_step ht
    exact ⟨u, steps_succ hrun hstep, hu⟩

end Sys2Proof.Machine
end

section
/-! SUPPORT. A step of the block and the source's `step()` (spec/40_scheduler.md R134): a pass of the block
is a round of the source's loop, call by call. -/

namespace Sys2Proof.Machine

/-! A pass over a set of threads -/

/-- The call that `sourceCall` makes where the thread has no delay left. -/
def madeCall {σ : Type} (eff : Effects σ) (t : Fin 3) (w : StepWork σ) : StepWork σ :=
  let c : EffectCall := ⟨t, w.threads[t].fn, w.threads[t].first⟩
  let r := eff c w.effects
  { threads := w.threads.set t.val ⟨r.fn, r.fn != c.fn, r.delay⟩ t.isLt
    br := brightnessAfter r.actions w.br
    effects := r.effects
    calls := w.calls ++ [c] }

/-- The thread t is called if it is in the set. -/
def callIfDue {σ : Type} (eff : Effects σ) (due : BitVec 3) (t : Fin 3) (w : StepWork σ) :
    StepWork σ :=
  if due.getLsbD t.val then madeCall eff t w else w

/-- The threads of the set are called, in ascending order. -/
def passOver {σ : Type} (eff : Effects σ) (due : BitVec 3) (w : StepWork σ) : StepWork σ :=
  callIfDue eff due 2 (callIfDue eff due 1 (callIfDue eff due 0 w))

section
variable {σ : Type} (eff : Effects σ) (due : BitVec 3) (w : StepWork σ)

theorem madeCall_other {t i : Fin 3} (h : i ≠ t) :
    (madeCall eff t w).threads[i] = w.threads[i] := by
  simp only [madeCall, Fin.getElem_fin, Vector.getElem_set]
  rw [if_neg fun e => h (Fin.ext e.symm)]

theorem callIfDue_other {t i : Fin 3} (h : i ≠ t) :
    (callIfDue eff due t w).threads[i] = w.threads[i] := by
  unfold callIfDue
  split
  · exact madeCall_other eff w h
  · rfl

theorem sourceCall_eq_callIfDue {t : Fin 3}
    (h : due.getLsbD t.val = true ↔ w.threads[t].rem = 0#32) :
    sourceCall eff t w = callIfDue eff due t w := by
  simp only [callIfDue, h]
  rfl

/-- A round of the source is a pass over the threads without a delay at its start, since a call changes
only the entry of its own thread (spec/40_scheduler.md R129). -/
theorem sourcePass_eq_passOver
    (h : ∀ t : Fin 3, due.getLsbD t.val = true ↔ w.threads[t].rem = 0#32) :
    sourcePass eff w = passOver eff due w := by
  unfold sourcePass passOver
  rw [sourceCall_eq_callIfDue eff due w (h 0), sourceCall_eq_callIfDue eff due (t := 1),
    sourceCall_eq_callIfDue eff due (t := 2)]
  · rw [callIfDue_other _ _ _ (by decide), callIfDue_other _ _ _ (by decide)]
    exact h 2
  · rw [callIfDue_other _ _ _ (by decide)]
    exact h 1

theorem nonempty_sets : ∀ d : BitVec 3, d ≠ 0#3 →
    d = 1#3 ∨ d = 2#3 ∨ d = 3#3 ∨ d = 4#3 ∨ d = 5#3 ∨ d = 6#3 ∨ d = 7#3 := by decide

/-- A pass calls the least thread of its set first, and then goes over the rest. -/
theorem passOver_lowest (h : due ≠ 0#3) :
    passOver eff due w =
      passOver eff (without due (lowest due)) (madeCall eff (lowest due) w) := by
  rcases nonempty_sets due h with rfl | rfl | rfl | rfl | rfl | rfl | rfl <;> rfl

end

theorem without_lowest_lt : ∀ d : BitVec 3, d ≠ 0#3 →
    (without d (lowest d)).toNat < d.toNat := by decide

/-! The block in the middle of a step -/

/-- The block shows the thread table and the brightness that the source works on. -/
def State.Shows {σ : Type} (s : State) (w : StepWork σ) : Prop :=
  s.threads = w.threads ∧ s.br = w.br

/-- A call is outstanding, of the least due thread. -/
def State.InPass (s : State) : Prop := s.busy = true ∧ s.due ≠ 0#3 ∧ s.cur = lowest s.due

/-- What `begin_pass()` leaves (spec/40_scheduler.md R123): the step has completed, or a pass opens over the
threads without a delay. -/
def State.AfterBeginPass (s : State) : Prop :=
  (leastRem s.threads ≠ 0#32 → s.busy = false ∧ s.last = leastRem s.threads) ∧
  (leastRem s.threads = 0#32 → s.InPass ∧
    ∀ t : Fin 3, s.due.getLsbD t.val = true ↔ s.threads[t].rem = 0#32)

theorem afterBeginPass_beginPass (s : State) : (beginPass s).AfterBeginPass := by
  rw [State.AfterBeginPass, beginPass_threads]
  refine ⟨fun h => ?_, fun h => ?_⟩
  · rw [beginPass_completes (s := s) h]
    exact ⟨rfl, rfl⟩
  · rw [beginPass_opens (s := s) h]
    exact ⟨⟨rfl, zeroRem_ne_zero h, rfl⟩, zeroRem_bit s⟩

theorem afterBeginPass_congr {s t : State} (h : t.sched = s.sched) (hs : s.AfterBeginPass) :
    t.AfterBeginPass := by
  cases s; cases t
  simp only [State.sched, SchedPart.mk.injEq] at h
  obtain ⟨rfl, rfl, rfl, rfl, rfl, rfl, rfl⟩ := h
  exact hs

/-- Serving k + 1 calls takes the host from h to h' and the source's work from w to w', and with k calls at
most the loop does not end. -/
def ServesCalls {σ : Type} (eff : Effects σ) (gap : Nat → Nat) (k : Nat) (h : HostRun)
    (w : StepWork σ) (h' : HostRun) (w' : StepWork σ) : Prop :=
  (∀ n ≤ k, serveCalls eff gap n h w.effects w.calls = none) ∧
  ∀ n, serveCalls eff gap (n + k + 1) h w.effects w.calls =
    serveCalls eff gap n h' w'.effects w'.calls

section
variable {σ : Type} (eff : Effects σ) (gap : Nat → Nat) {h : HostRun} {w : StepWork σ}

theorem servesCalls_after_one {k : Nat} {h₁ h₂ : HostRun} {w₁ w₂ : StepWork σ}
    (hone : ServesCalls eff gap 0 h w h₁ w₁) (hmore : ServesCalls eff gap k h₁ w₁ h₂ w₂) :
    ServesCalls eff gap (k + 1) h w h₂ w₂ := by
  obtain ⟨hnone, hserve⟩ := hone
  obtain ⟨hnone', hserve'⟩ := hmore
  refine ⟨fun n hn => ?_, fun n => (hserve (n + k + 1)).trans (hserve' n)⟩
  cases n with
  | zero => exact hnone 0 le_rfl
  | succ n => exact (hserve n).trans (hnone' n (Nat.le_of_succ_le_succ hn))

/-- The outstanding call is served: the block shows what the call makes of the source's work, and either
the next thread of the pass is called or `begin_pass()` follows. -/
theorem servesCalls_outstanding (hw : h.state.Shows w) (hb : h.state.busy = true) :
    let w' := madeCall eff h.state.cur w
    let due' := without h.state.due h.state.cur
    ∃ h', h'.state.Shows w' ∧
      (due' ≠ 0#3 → h'.state.InPass ∧ h'.state.due = due') ∧
      (due' = 0#3 → h'.state.AfterBeginPass) ∧ ServesCalls eff gap 0 h w h' w' := by
  obtain ⟨threads, br, effects, calls⟩ := w
  obtain ⟨hthreads, hbr⟩ := hw
  dsimp only at hthreads hbr
  subst hthreads hbr
  obtain ⟨h', hsched, hnone, hserve⟩ := serveCalls_call eff gap h effects calls hb
  have hthreads := congrArg SchedPart.threads hsched
  have hbr := congrArg SchedPart.br hsched
  refine ⟨h', ⟨?_, ?_⟩, fun hd => ?_, fun hd => ?_, fun n hn => ?_, hserve⟩
  · exact hthreads.trans (continuePass_threads _)
  · exact hbr.trans (continuePass_br _)
  · rw [continuePass_calls hd] at hsched
    have hbusy := congrArg SchedPart.busy hsched
    have hdue := congrArg SchedPart.due hsched
    have hcur := congrArg SchedPart.cur hsched
    exact ⟨⟨hbusy.trans hb, fun e => hd (hdue.symm.trans e),
      hcur.trans (congrArg lowest hdue).symm⟩, hdue⟩
  · rw [continuePass_ends hd] at hsched
    exact afterBeginPass_congr hsched (afterBeginPass_beginPass _)
  · rw [Nat.le_zero.1 hn]
    exact hnone

/-- A pass is served, call by call. -/
theorem servesCalls_pass (hw : h.state.Shows w) (hp : h.state.InPass) :
    ∃ k h', h'.state.Shows (passOver eff h.state.due w) ∧ h'.state.AfterBeginPass ∧
      ServesCalls eff gap k h w h' (passOver eff h.state.due w) := by
  induction hd : h.state.due.toNat using Nat.strong_induction_on generalizing h w with
  | _ d ih =>
    obtain ⟨hb, hdue, hcur⟩ := hp
    obtain ⟨h₁, hw₁, hnext, hend, hone⟩ := servesCalls_outstanding eff gap hw hb
    rw [passOver_lowest eff _ w hdue, ← hcur]
    by_cases hleft : without h.state.due h.state.cur = 0#3
    · rw [hleft]
      exact ⟨0, h₁, hw₁, hend hleft, hone⟩
    · obtain ⟨hp₁, hdue₁⟩ := hnext hleft
      have hlt : h₁.state.due.toNat < d := by
        rw [hdue₁, hcur, ← hd]
        exact without_lowest_lt _ hdue
      obtain ⟨k, h', hw', hafter, hmore⟩ := ih _ hlt hw₁ hp₁ rfl
      rw [hdue₁] at hw' hmore
      exact ⟨k + 1, h', hw', hafter, servesCalls_after_one eff gap hone hmore⟩

/-! Both directions -/

/-- The block after the step, beside the source's work at its end. -/
def State.Completed {σ : Type} (s : State) (w : StepWork σ) : Prop :=
  s.busy = false ∧ s.threads = w.threads ∧ s.br = w.br ∧ s.last = leastRem w.threads

/-- Where no delay is 0 the block has completed. -/
theorem serveCalls_completed (hw : h.state.Shows w) (ha : h.state.AfterBeginPass)
    (hmin : leastRem w.threads ≠ 0#32) (n : Nat) :
    ∃ h', h'.state.Completed w ∧
      serveCalls eff gap n h w.effects w.calls = some (h', w.effects, w.calls) := by
  obtain ⟨hthreads, hbr⟩ := hw
  obtain ⟨hdone, -⟩ := ha
  rw [hthreads] at hdone
  obtain ⟨hb, hlast⟩ := hdone hmin
  obtain ⟨h', hsched, hserve⟩ := serveCalls_idle eff gap n h w.effects w.calls hb
  refine ⟨h', ⟨?_, ?_, ?_, ?_⟩, hserve⟩
  · exact (congrArg SchedPart.busy hsched).trans hb
  · exact (congrArg SchedPart.threads hsched).trans hthreads
  · exact (congrArg SchedPart.br hsched).trans hbr
  · exact (congrArg SchedPart.last hsched).trans hlast

/-- Where a delay is 0 the block serves a pass, which is one round of the source. -/
theorem servesCalls_round (hw : h.state.Shows w) (ha : h.state.AfterBeginPass)
    (hmin : leastRem w.threads = 0#32) :
    ∃ k h', h'.state.Shows (sourcePass eff w) ∧ h'.state.AfterBeginPass ∧
      ServesCalls eff gap k h w h' (sourcePass eff w) := by
  obtain ⟨-, hopen⟩ := ha
  rw [hw.1] at hopen
  obtain ⟨hp, hdue⟩ := hopen hmin
  rw [sourcePass_eq_passOver eff h.state.due w hdue]
  exact servesCalls_pass eff gap hw hp

theorem sourceLoop_completed (hmin : leastRem w.threads ≠ 0#32) (n : Nat) :
    sourceLoop eff n w = some w := by
  cases n <;> rw [sourceLoop, if_pos hmin]

theorem sourceLoop_zero_open (hmin : leastRem w.threads = 0#32) : sourceLoop eff 0 w = none := by
  rw [sourceLoop, if_neg (not_not.2 hmin)]

theorem sourceLoop_round (hmin : leastRem w.threads = 0#32) (n : Nat) :
    sourceLoop eff (n + 1) w = sourceLoop eff n (sourcePass eff w) := by
  rw [sourceLoop, if_neg (not_not.2 hmin)]

/-- The block completes whenever the source does, by induction on the source's rounds. -/
theorem serveCalls_of_sourceLoop (hw : h.state.Shows w) (ha : h.state.AfterBeginPass) {n : Nat}
    {w₂ : StepWork σ} (hs : sourceLoop eff n w = some w₂) :
    ∃ m h₂, serveCalls eff gap m h w.effects w.calls = some (h₂, w₂.effects, w₂.calls) ∧
      h₂.state.Completed w₂ := by
  induction n using Nat.strong_induction_on generalizing h w with
  | _ n ih =>
    by_cases hmin : leastRem w.threads = 0#32
    · cases n with
      | zero => simp [sourceLoop_zero_open eff hmin] at hs
      | succ n =>
        rw [sourceLoop_round eff hmin] at hs
        obtain ⟨k, h', hw', ha', -, hserve⟩ := servesCalls_round eff gap hw ha hmin
        obtain ⟨m, h₂, hend, hdone⟩ := ih n n.lt_succ_self hw' ha' hs
        exact ⟨m + k + 1, h₂, (hserve m).trans hend, hdone⟩
    · rw [sourceLoop_completed eff hmin] at hs
      cases hs
      obtain ⟨h₂, hdone, hserve⟩ := serveCalls_completed eff gap hw ha hmin 0
      exact ⟨0, h₂, hserve, hdone⟩

/-- The source completes whenever the block does, by induction on the calls that are left. -/
theorem sourceLoop_of_serveCalls (hw : h.state.Shows w) (ha : h.state.AfterBeginPass) {m : Nat}
    {h₂ : HostRun} {y : σ} {calls : List EffectCall}
    (hs : serveCalls eff gap m h w.effects w.calls = some (h₂, y, calls)) :
    ∃ n w₂, sourceLoop eff n w = some w₂ ∧ w₂.effects = y ∧ w₂.calls = calls ∧
      h₂.state.Completed w₂ := by
  induction m using Nat.strong_induction_on generalizing h w with
  | _ m ih =>
    by_cases hmin : leastRem w.threads = 0#32
    · obtain ⟨k, h', hw', ha', hnone, hserve⟩ := servesCalls_round eff gap hw ha hmin
      rcases Nat.lt_or_ge k m with hk | hk
      · obtain ⟨j, rfl⟩ := Nat.exists_eq_add_of_lt hk
        rw [Nat.add_comm k j, hserve j] at hs
        obtain ⟨n, w₂, hloop, hrest⟩ := ih j (by omega) hw' ha' hs
        exact ⟨n + 1, w₂, (sourceLoop_round eff hmin n).trans hloop, hrest⟩
      · simp [hnone m hk] at hs
    · obtain ⟨h', hdone, hserve⟩ := serveCalls_completed eff gap hw ha hmin m
      rw [hserve] at hs
      cases hs
      exact ⟨0, w, sourceLoop_completed eff hmin 0, rfl, rfl, hdone⟩

end

/-- What the source's `step()` starts from: the delays after the subtraction, and no call made. -/
def stepStart {σ : Type} (s : State) (x : σ) : StepWork σ :=
  ⟨(subtractElapsed s).threads, s.br, x, []⟩

theorem sourceStep_eq {σ : Type} (eff : Effects σ) (n : Nat) (s : State) (x : σ) :
    sourceStep eff n s.last s.threads s.br x = sourceLoop eff n (stepStart s x) := rfl

/-- SCHED_STEP leaves the block where the source's `step()` starts. -/
theorem hostAccess_schedStep {σ : Type} {gap : Nat → Nat} {h h₁ : HostRun} (x : σ)
    (hi : h.state.sinit = true) (hb : h.state.busy = false)
    (hstep : hostAccess gap (wrCommand .schedStep) h = some h₁) :
    h₁.state.Shows (stepStart h.state x) ∧ h₁.state.AfterBeginPass := by
  let u := ticks (gap h.made) h.state
  have hu : u = ticks (gap h.made) h.state := rfl
  rw [ticks_eq] at hu
  have hexec : exec (wrCommand .schedStep) u = .next (beginPass (subtractElapsed u)) :=
    (exec_wrCommand rfl u).trans (exec_schedStep_idle (hu ▸ hi) (hu ▸ hb))
  rw [hostAccess_eq hexec, Option.some.injEq] at hstep
  subst hstep
  refine ⟨⟨?_, ?_⟩, afterBeginPass_beginPass _⟩
  · rw [beginPass_threads, hu]
    rfl
  · rw [beginPass_br, hu]
    rfl

end Sys2Proof.Machine
end

section
/-! The statements of spec/40_scheduler.md. -/

namespace Sys2Proof.Machine

/-- Settles O48: by the two branches of the helper. -/
theorem beginPassOpensOrCompletes : Obligations.BeginPassOpensOrCompletes :=
  passBegun_beginPass

/-- Settles O50: the subtraction, thread by thread, and then the helper. -/
theorem schedStepBeginsStep : Obligations.SchedStepBeginsStep := by
  refine ⟨fun s hi hb => ?_, fun s h => ?_⟩
  · refine ⟨subtractElapsed s, _, exec_schedStep_idle hi hb, subtractElapsed_eq s, fun i => ?_,
      passBegun_beginPass _⟩
    rw [subtractElapsed_thread]
    exact ⟨satsub_toNat _ _, rfl, rfl⟩
  · exact ⟨_, exec_schedStep_refused h, raiseFault_recorded .schedProtocol _ s⟩

/-- Settles O51: the return is recorded, and the pass goes on or has ended. -/
theorem schedRetReturnsFromCall : Obligations.SchedRetReturnsFromCall := by
  refine ⟨fun s f hb => ?_, fun s f hb => ?_⟩
  · refine ⟨recordReturn f s, _, exec_schedRet_busy f hb, rfl, ?_, ?_, ?_, recordReturn_other f s,
      without_bit s.due s.cur, fun hd => ?_, fun hd => ?_⟩
    · rw [recordReturn_cur, returnedThread]
    · rw [recordReturn_cur, returnedThread]
    · rw [recordReturn_cur, returnedThread_first_iff]
    · rw [continuePass_calls hd]
      exact ⟨rfl, lowest_spec _ hd⟩
    · rw [continuePass_ends hd]
      exact passBegun_beginPass _
  · refine ⟨_, exec_schedRet_idle f hb, ?_⟩
    rw [← schedRet_word]
    exact raiseFault_recorded .schedProtocol _ s

/-- Settles O52: `LAST` and `BUSY` are touched by the scheduler's commands only, and there by the helper. -/
theorem stepCompletesWithMinimum : Obligations.StepCompletesWithMinimum := by
  intro s t i h hne hword hchange
  suffices hdone : t.busy = false ∧ t.last ≠ 0#32 ∧ (∀ j : Fin 3, t.last ≤ t.threads[j].rem) ∧
      ∃ j : Fin 3, t.last = t.threads[j].rem by
    obtain ⟨hb, hlast, hmin⟩ := hdone
    exact ⟨hb, hlast, rfl, hmin⟩
  rcases (exec_effect h).last_busy_cases with ⟨hlast, hbusy⟩ | hinit | ⟨hidle, rfl⟩ | ⟨f, rfl⟩
  · rcases hchange with hl | ⟨hb, hb'⟩
    · exact absurd hlast hl
    · simp [hbusy, hb] at hb'
  · rcases issues_schedInit hinit with rfl | rfl
    · exact absurd rfl hne
    · exact absurd rfl (hword _ rfl)
  · exact beginPass_minimum (hchange.imp_right And.right)
  · by_cases hd : (recordReturn f s).due = 0#3
    · rw [continuePass_ends hd] at hchange ⊢
      exact beginPass_minimum (hchange.imp_right And.right)
    · rw [continuePass_calls hd] at hchange
      obtain hl | ⟨hb, hb'⟩ := hchange
      · exact absurd rfl hl
      · exact absurd (hb.symm.trans hb') nofun

/-- Settles O53: the least of the threads left is above the least of them all. -/
theorem callsAscendWithinAPass : Obligations.CallsAscendWithinAPass := by
  intro s t f hs hb h hleft
  obtain ⟨-, hcall, -⟩ := hs
  obtain ⟨-, -, hcur, hzero⟩ := hcall hb
  rw [exec_schedRet_busy f hb, continuePass_calls hleft] at h
  cases h
  obtain ⟨hnext, -⟩ := lowest_spec _ hleft
  refine ⟨hb, ?_, rfl, without_self _ _, recordReturn_due f hzero _ hnext⟩
  show s.cur < lowest (without s.due s.cur)
  rw [hcur] at hleft ⊢
  exact lowest_lt_next s.due hleft

/-- Settles O54: the thread that returned has no delay, so the step stays open. -/
theorem zeroDelayIsCalledAgainInTheStep : Obligations.ZeroDelayIsCalledAgainInTheStep := by
  intro s t f hb hd h
  rw [exec_schedRet_busy f hb] at h
  cases h
  obtain ⟨hopen, hlast⟩ := return_zero_open f hb hd
  refine ⟨hopen, hlast, ?_⟩
  rw [continuePass_threads, recordReturn_cur]
  refine ⟨rfl, hd, returnedThread_first_iff f s, recordReturn_other f s, fun hleft => ?_,
    fun hended => ?_⟩
  · rw [continuePass_calls hleft]
    exact ⟨rfl, without_self _ _⟩
  · have hmin := minRem_recordReturn_of_zero f hd
    rw [continuePass_ends hended, beginPass_opens hmin]
    refine ⟨(zeroRem_bit _ s.cur).2 ?_, zeroRem_bit _⟩
    rw [recordReturn_cur]
    exact hd

/-- Settles O55: `LAST` is a lower bound of the delays, and where it is not 0 it is one of them. -/
theorem subtractionMakesAThreadDue : Obligations.SubtractionMakesAThreadDue := by
  intro s hs hi hb
  obtain ⟨-, -, hleast, -⟩ := hs
  obtain ⟨hle, hmem⟩ := hleast hb hi
  have hrem : ∀ i : Fin 3, (subtractElapsed s).threads[i].rem.toNat
      = s.threads[i].rem.toNat - s.last.toNat := fun i => by
    rw [subtractElapsed_thread, satsub_toNat]
  have hdue : ∀ i : Fin 3, s.last = s.threads[i].rem → (subtractElapsed s).threads[i].rem = 0#32 := by
    intro i hlast
    apply BitVec.eq_of_toNat_eq
    rw [hrem, hlast, Nat.sub_self]
    rfl
  refine ⟨fun i => ?_, ?_⟩
  · rw [hrem]
    exact Nat.sub_add_cancel (hle i)
  · by_cases hlast : s.last = 0#32
    · by_cases hzero : ∃ i : Fin 3, s.threads[i].rem = 0#32
      · obtain ⟨i, hz⟩ := hzero
        exact .inl ⟨i, hdue i (hlast.trans hz.symm)⟩
      · exact .inr ⟨hlast, not_exists.1 hzero⟩
    · obtain ⟨i, hm⟩ := hmem hlast
      exact .inl ⟨i, hdue i hm⟩

/-- Settles O56: every served call that returns delay 0 leaves the next one outstanding, and so does every
round of events that returns it. -/
theorem endlessZeroDelaysNeverComplete : Obligations.EndlessZeroDelaysNeverComplete := by
  refine ⟨fun σ eff gap h x hzero hb => ⟨fun n => ?_, fun c y => ?_⟩, fun s f hb hd hin hl n => ?_⟩
  · exact serveCalls_none_of_zero_delays eff gap hzero n x [] hb
  · obtain ⟨h', he, hsched⟩ := effect_sched gap (eff c y) h hb
    refine ⟨h', he, ?_, fun hset => effect_keeps_fault gap hset hb he⟩
    refine (congrArg SchedPart.busy hsched).trans (return_zero_open _ ?_ ?_).1
    · exact hb
    · exact hzero c y
  · have hstart : s.ZeroReturns f 0 s := ⟨hb, hd, rfl, rfl, hl, hin, (BitVec.add_zero _).symm⟩
    obtain ⟨t, hrun, hbusy, -, hfault, hlast, -, -, htick⟩ := zeroReturns_steps hstart n
    exact ⟨t, hrun, hbusy, hfault, hlast, htick⟩

/-- Settles O57: SCHED_STEP leaves both at the same start, and from there a pass is a round. -/
theorem schedulerRefinesSourceStep : Obligations.SchedulerRefinesSourceStep := by
  intro σ eff gap h h₁ x hi hb hstep
  obtain ⟨hw, ha⟩ := hostAccess_schedStep x hi hb hstep
  refine ⟨fun n w hs => ?_, fun m h₂ y calls hs => ?_⟩
  · exact serveCalls_of_sourceLoop eff gap hw ha ((sourceStep_eq eff n h.state x).symm.trans hs)
  · obtain ⟨n, w, hloop, hy, hcalls, -, hend⟩ := sourceLoop_of_serveCalls eff gap hw ha hs
    exact ⟨n, w, (sourceStep_eq eff n h.state x).trans hloop, hy, hcalls, hend⟩

/-- Settles O49: by the two branches of the command. -/
theorem schedInitCreatesThreads : Obligations.SchedInitCreatesThreads :=
  ⟨fun _ hb => exec_schedInit_idle hb,
    fun s hb => ⟨_, exec_schedInit_busy hb, raiseFault_recorded .schedProtocol _ s⟩⟩

end Sys2Proof.Machine
end

section
/-! SUPPORT. RENDER with no swap pending, what both render commands leave alone and when they are refused
(spec/41_renderer.md R150 to R153), which host operations write a bank, and the phases in which an LED of a
given pulse length is on (R154, R156). -/

namespace Sys2Proof.Machine

/-! The two commands -/

/-- The state with every LED rasterized into the inactive bank. -/
def rasterizeAll (s : State) : State :=
  setBank (!s.active) (Vector.ofFn fun p => renderFrame s p) s

theorem exec_render_idle {s : State} (hp : s.pending = false) :
    exec .render s = .next (rasterizeAll s) := by
  rw [exec, execRender, if_neg (by simp [hp]), rasterizeAll]

theorem eq_rasterizeAll {s t : State} (hp : s.pending = false) (h : exec .render s = .next t) :
    t = rasterizeAll s := by
  rw [exec_render_idle hp, Host.Outcome.next.injEq] at h
  exact h.symm

theorem eq_rasterizeSubset {s t : State} (hp : s.pending = false)
    (h : exec .renderList s = .next t) : t = rasterizeSubset s := by
  rw [exec_renderList_idle hp, Host.Outcome.next.injEq] at h
  exact h.symm

theorem exec_render_pending {s : State} (hp : s.pending = true) :
    exec .render s = .next (raiseFault .renderWhilePending 0x01000000#32 s) := by
  rw [exec, execRender, if_pos hp]
  rfl

theorem exec_renderList_pending {s : State} (hp : s.pending = true) :
    exec .renderList s = .next (raiseFault .renderWhilePending 0x02000000#32 s) := by
  rw [exec, execRenderList, if_pos hp]
  rfl

/-- A bank is all that `setBank` writes. -/
theorem setBank_frame (k : Bool) (b : Bank) (s : State) :
    setBank k b s = { s with bank0 := (setBank k b s).bank0, bank1 := (setBank k b s).bank1 } := by
  rw [setBank_eq]

@[simp] theorem rasterizeAll_active (s : State) : (rasterizeAll s).active = s.active :=
  setBank_active _ _ s

@[simp] theorem rasterizeSubset_active (s : State) : (rasterizeSubset s).active = s.active :=
  setBank_active _ _ s

/-! The bits after RENDER -/

theorem rasterizeAll_ledBit (s : State) (p : Fin 64) (i : Nat) :
    (rasterizeAll s).ledBit (!s.active) p i = (renderFrame s p).getLsbD i := by
  rw [rasterizeAll, ledBit_setBank_same, Fin.getElem_fin, Vector.getElem_ofFn]

theorem rasterizeAll_ledBit_led (s : State) (p : Fin 64) (i : Fin 40) :
    (rasterizeAll s).ledBit (!s.active) p i.val =
      decide (p.val < (pulseLength s.cfg s.br[i]).toNat) := by
  rw [rasterizeAll_ledBit, renderFrame_bit, dif_pos i.isLt, ledOn]

theorem rasterizeAll_ledBit_above (s : State) (p : Fin 64) {i : Nat} (hi : 40 ≤ i) :
    (rasterizeAll s).ledBit (!s.active) p i = false := by
  rw [rasterizeAll_ledBit, renderFrame_bit, dif_neg (Nat.not_lt.2 hi)]

theorem rasterizeAll_ledBit_iff (s : State) (p : Fin 64) (i : Fin 40) :
    (rasterizeAll s).ledBit (!s.active) p i.val = true ↔
      p.val < (pulseLength s.cfg s.br[i]).toNat := by
  rw [rasterizeAll_ledBit_led, decide_eq_true_iff]

/-- Only the 40 LEDs have bits that are on. -/
theorem lt_forty_of_rasterizeAll_ledBit {s : State} {p : Fin 64} {i : Nat}
    (h : (rasterizeAll s).ledBit (!s.active) p i = true) : i < 40 := by
  by_contra hi
  rw [rasterizeAll_ledBit_above s p (Nat.not_lt.1 hi)] at h
  cases h

/-- The LEDs a render command rasterizes: all of them, or those of `SUBSET`. -/
theorem rendered_ledBit {s t : State} {c : Instr} {i : Fin 40} (hp : s.pending = false)
    (hc : c = .render ∨ (c = .renderList ∧ s.subset.getLsbD i.val = true))
    (h : exec c s = .next t) (p : Fin 64) :
    t.ledBit (!t.active) p i.val = decide (p.val < (pulseLength s.cfg s.br[i]).toNat) := by
  obtain rfl | ⟨rfl, hi⟩ := hc
  · rw [eq_rasterizeAll hp h, rasterizeAll_active]
    exact rasterizeAll_ledBit_led s p i
  · rw [eq_rasterizeSubset hp h, rasterizeSubset_active]
    exact rasterizeSubset_ledBit_inside p hi

/-! Pulse lengths -/

theorem pulseLength_mono {c : Config} (hc : c.wf) {a b : BitVec 6} (h : a ≤ b) :
    (pulseLength c a).toNat ≤ (pulseLength c b).toNat := by
  obtain ⟨-, hmono, -⟩ := hc
  exact hmono a.toFin b.toFin h

/-- The number of phases in which what follows a pulse is on is the pulse's length. -/
theorem countP_pulse {c : Config} (hc : c.wf) (b : BitVec 6) {lit : Fin 64 → Bool}
    (hlit : ∀ p, lit p = decide (p.val < (pulseLength c b).toNat)) :
    (List.finRange 64).countP lit = (pulseLength c b).toNat := by
  rw [funext hlit]
  exact countP_lt _ (pulseLength_le c hc b)

/-! Who writes a bank -/

@[simp] theorem raiseFault_bank (c : FaultCode) (w : Word) (s : State) (k : Bool) :
    (raiseFault c w s).bank k = s.bank k := by rw [raiseFault_eq]; rfl

@[simp] theorem beginPass_bank (s : State) (k : Bool) : (beginPass s).bank k = s.bank k := by
  rw [beginPass_eq]; rfl

@[simp] theorem continuePass_bank (s : State) (k : Bool) : (continuePass s).bank k = s.bank k := by
  rw [continuePass_eq]; rfl

/-- Of the host's operations, only a render with no swap pending writes a bank, the inactive one. -/
theorem HostEffect.bank_cases {i : Instr} {s t : State} (h : HostEffect i s t) :
    (∀ k, t.bank k = s.bank k) ∨
    (s.pending = false ∧ ∃ b, t = setBank (!s.active) b s) := by
  cases h with
  | render hc hp | renderList hc hp => exact .inr ⟨hp, _, rfl⟩
  | fault c w => exact .inl (raiseFault_bank c w s)
  | readFault z o w => exact .inl (raiseFault_bank .badAccess w s)
  | read | unchanged | ctrl | ack | data | subset | br | arm | schedInit => exact .inl fun _ => rfl
  | schedStep => exact .inl (beginPass_bank (subtractElapsed s))
  | schedRet f => exact .inl (continuePass_bank (recordReturn f s))

end Sys2Proof.Machine
end

section
/-! SUPPORT. A PWM cycle over ticks with no host access between them (spec/42_swap_arbiter.md R178 to
R182): which bank streams, and when its frames are shifted and latched. -/

namespace Sys2Proof.Machine

/-- The even tick of phase p shifts frame p of the bank that is active after it. -/
theorem tickStep_shift_of_even {s : State} {p : Fin 64} (h : s.tick.toNat % 128 = 2 * p.val) :
    (tickStep s).shift = (s.bank (tickStep s).active)[p] := by
  have heven : s.tick.getLsbD 0 = false := by
    rw [tick_odd, decide_eq_false_iff_not]
    omega
  have hphase : phase s = p := by
    apply Fin.ext
    rw [phase_val]
    omega
  subst hphase
  unfold tickStep shiftTick
  rw [heven]
  cases swapNow s <;> rfl

/-- An odd tick latches what was shifted. -/
theorem tickStep_latch_of_odd {s : State} (h : s.tick.toNat % 2 = 1) :
    (tickStep s).latch = s.shift := by
  have hodd : s.tick.getLsbD 0 = true := by rw [tick_odd, h]; rfl
  rw [tickStep, hodd]
  rfl

/-- A tick that does not begin a cycle leaves `ACTIVE` alone. -/
theorem tickStep_active_of_inside {s : State} (h : s.tick.toNat % 128 ≠ 0) :
    (tickStep s).active = s.active := by
  rcases tickStep_swap s with ⟨heven, hswap, -⟩ | ⟨-, hkeep, -⟩
  · obtain ⟨hphase, -⟩ := (swapNow_iff s).1 hswap
    rw [tick_odd, decide_eq_false_iff_not] at heven
    omega
  · exact hkeep

section
variable {s : State} (hs : s.tick.toNat % 128 = 0)
include hs

theorem ticks_tick_in_cycle {n : Nat} (hn : n < 128) : (ticks n s).tick.toNat % 128 = n := by
  rw [ticks_tick]
  omega

/-- The bank that is active after the first tick of a cycle is so after every tick of it. -/
theorem ticks_active_in_cycle {n : Nat} (hn : n < 128) :
    (ticks (n + 1) s).active = (tickStep s).active := by
  induction n with
  | zero => rfl
  | succ n ih =>
    have hinside : (ticks (n + 1) s).tick.toNat % 128 ≠ 0 := by
      rw [ticks_tick_in_cycle hs hn]
      exact n.succ_ne_zero
    rw [ticks_succ, tickStep_active_of_inside hinside, ih (by omega)]

/-- Tick 2p of a cycle shifts frame p. -/
theorem ticks_shift_in_cycle (p : Fin 64) :
    (ticks (2 * p.val + 1) s).shift = (s.bank (tickStep s).active)[p] := by
  have htick : (ticks (2 * p.val) s).tick.toNat % 128 = 2 * p.val :=
    ticks_tick_in_cycle hs (by omega)
  rw [ticks_succ, tickStep_shift_of_even htick, ← ticks_succ, ticks_active_in_cycle hs (by omega),
    bank_ticks]

/-- Tick 2p + 1 of a cycle latches it. -/
theorem ticks_latch_in_cycle (p : Fin 64) :
    (ticks (2 * p.val + 2) s).latch = (s.bank (tickStep s).active)[p] := by
  have htick : (ticks (2 * p.val + 1) s).tick.toNat % 128 = 2 * p.val + 1 :=
    ticks_tick_in_cycle hs (by omega)
  rw [ticks_succ, tickStep_latch_of_odd (by omega), ticks_shift_in_cycle hs]

end

end Sys2Proof.Machine
end

section
/-! The statements of spec/41_renderer.md. -/

namespace Sys2Proof.Machine

/-- Settles O34: the bits of the frames RENDER writes, and the frame of a write of the inactive bank. -/
theorem renderRasterizesAll : Obligations.RenderRasterizesAll := by
  refine ⟨fun s hp => ⟨_, exec_render_idle hp, ?_, ?_, ?_, ?_⟩, fun s hp =>
    ⟨_, exec_render_pending hp, raiseFault_recorded .renderWhilePending _ s⟩⟩
  · exact rasterizeAll_ledBit_led s
  · exact fun p i hi => rasterizeAll_ledBit_above s p hi
  · exact setBank_other s.active _ s
  · exact setBank_frame _ _ s

/-- Settles O35: likewise, with the bits outside the mask as they were. -/
theorem renderListRasterizesSubset : Obligations.RenderListRasterizesSubset := by
  refine ⟨fun s hp => ⟨_, exec_renderList_idle hp, ?_, ?_, ?_, ?_⟩, fun s hp =>
    ⟨_, exec_renderList_pending hp, raiseFault_recorded .renderWhilePending _ s⟩⟩
  · exact fun p i hi => rasterizeSubset_ledBit_inside p hi
  · exact fun p i hi => rasterizeSubset_ledBit_outside p hi
  · exact setBank_other s.active _ s
  · exact setBank_frame _ _ s

/-- Settles O36: a rendered LED follows its pulse. -/
theorem decodingLaw : Obligations.DecodingLaw := by
  intro s t c i hcfg hp hc h
  have hbit := rendered_ledBit hp hc h
  exact ⟨countP_pulse hcfg s.br[i] hbit, fun p => by rw [hbit, decide_eq_true_iff]⟩

/-- Settles O37: on the mask both commands write the pulse of the LED, elsewhere RENDER_LIST writes
nothing. -/
theorem subsetLaw : Obligations.SubsetLaw := by
  intro s t u p i hp ht hu
  rw [eq_rasterizeAll hp ht, eq_rasterizeSubset hp hu]
  cases hi : s.subset.getLsbD i with
  | true =>
    have hlt : i < 40 := BitVec.lt_of_getLsbD hi
    exact (rasterizeSubset_ledBit_inside (i := ⟨i, hlt⟩) p hi).trans
      (rasterizeAll_ledBit_led s p ⟨i, hlt⟩).symm
  | false => exact rasterizeSubset_ledBit_outside p hi

/-- Settles O38: each part compares phases with pulse lengths, which grow with the brightness. -/
theorem nestingLaw : Obligations.NestingLaw := by
  intro s t hcfg hp h
  rw [eq_rasterizeAll hp h]
  refine ⟨fun i p q hpq hq => ?_, fun i j p hij hi => ?_, fun i => ?_, fun i => ?_⟩
  · have hlt := lt_forty_of_rasterizeAll_ledBit hq
    have hbit := rasterizeAll_ledBit_iff s (i := ⟨i, hlt⟩)
    exact (hbit p).2 (Nat.lt_of_le_of_lt hpq ((hbit q).1 hq))
  · rw [rasterizeAll_ledBit_iff] at hi ⊢
    exact Nat.lt_of_lt_of_le hi (pulseLength_mono hcfg hij)
  · rw [rasterizeAll_ledBit_iff, ne_eq, BitVec.toNat_eq]
    exact Nat.pos_iff_ne_zero
  · have hle := pulseLength_le s.cfg hcfg s.br[i]
    rw [rasterizeAll_ledBit_iff, BitVec.toNat_eq]
    exact ⟨fun hlt => Nat.le_antisymm hle hlt, fun heq => heq ▸ (by decide)⟩

/-- Settles O39: a tick writes no bank, and a host operation at most the inactive one, with nothing
pending. -/
theorem streamedBankIsNeverWritten : Obligations.StreamedBankIsNeverWritten := by
  intro s t hno h
  obtain ⟨q, k, ⟨-, rfl⟩ | ⟨d, v, -, heff⟩ | ⟨hon, -⟩⟩ := step_cases h
  · rw [tickStep_eq]
    exact ⟨rfl, fun _ => ⟨rfl, rfl⟩⟩
  · rcases heff.bank_cases with hsame | ⟨hidle, b, rfl⟩
    · exact ⟨hsame s.active, fun _ => ⟨hsame false, hsame true⟩⟩
    · exact ⟨setBank_other s.active b _, fun hp => absurd (hidle.symm.trans hp) nofun⟩
  · exact absurd hon hno

/-- Settles O47: the outputs in phase p are frame p of the streamed bank, whose bits follow the pulse. -/
theorem dutyLaw : Obligations.DutyLaw := by
  intro s t i hcfg hp h u hu hbank
  refine countP_pulse hcfg s.br[i] fun p => ?_
  rw [ticks_latch_in_cycle hu, hbank, eq_rasterizeAll hp h]
  exact rasterizeAll_ledBit_led s p i

end Sys2Proof.Machine
end

section
/-! SUPPORT. One tick in full (spec/42_swap_arbiter.md R178 to R181), the events of a step (spec/20_memory.md
R88), and ARM_SWAP with a swap armed already (R171). -/

namespace Sys2Proof.Machine

/-! The next event -/

/-- A step whose next event is a tick is one tick. -/
theorem step_of_tick {s : State} (h : (nextEvent s).1 = .tick) :
    step s = .next (tickStep (nextEvent s).2) := by
  unfold step
  generalize nextEvent s = p at h ⊢
  obtain ⟨e, s'⟩ := p
  obtain rfl : e = .tick := h
  rfl

theorem nextEvent_listed {s : State} {e : Event} {rest : List Event} (h : s.inputs = e :: rest) :
    nextEvent s = (e, { s with inputs := rest }) := by
  rw [nextEvent, h]

/-- With no event listed, the next one is that of the next round, its tick last. -/
theorem nextEvent_round {s : State} (h : s.inputs = []) :
    nextEvent s =
      nextEvent { s with inputs := hostRound s ++ [.tick], rounds := s.rounds + 1 } := by
  cases hround : hostRound s with
  | nil => simp only [nextEvent, h, hround, List.nil_append]
  | cons e round => simp only [nextEvent, h, hround, List.cons_append]

/-! A latch tick and a shift tick -/

theorem tickStep_of_odd {s : State} (h : s.tick.toNat % 2 = 1) :
    tickStep s = { latchTick s with tick := s.tick + 1#32 } := by
  rw [tickStep, if_pos (by rw [tick_odd, h]; rfl)]

theorem tickStep_of_even {s : State} (h : s.tick.toNat % 2 = 0) :
    tickStep s = { shiftTick s with tick := s.tick + 1#32 } := by
  rw [tickStep, if_neg (by rw [tick_odd, h]; decide)]

/-- A shift tick with a swap due: the swap, and the frame of the bank it brings on. -/
theorem shiftTick_of_swap {s : State} (h : swapNow s = true) :
    shiftTick s = { s with
      active := !s.active
      pending := false
      swapped := true
      shift := (s.bank (!s.active))[phase s] } := by
  rw [shiftTick, h]
  rfl

theorem shiftTick_of_no_swap {s : State} (h : swapNow s = false) :
    shiftTick s = { s with shift := (s.bank s.active)[phase s] } := by
  rw [shiftTick, h]
  rfl

@[simp] theorem shiftTick_strobes (s : State) : (shiftTick s).strobes = s.strobes := by
  cases h : swapNow s
  · rw [shiftTick_of_no_swap h]
  · rw [shiftTick_of_swap h]

@[simp] theorem shiftTick_latch (s : State) : (shiftTick s).latch = s.latch := by
  cases h : swapNow s
  · rw [shiftTick_of_no_swap h]
  · rw [shiftTick_of_swap h]

/-- An even tick leaves the LED outputs as they are. -/
theorem tickStep_latch_of_even {s : State} (h : s.tick.toNat % 2 = 0) :
    (tickStep s).latch = s.latch := by
  rw [tickStep_of_even h, shiftTick_latch]

/-- The strobe is pulsed by the odd ticks alone. -/
theorem tickStep_strobes (s : State) : (tickStep s).strobes = s.strobes + s.tick.toNat % 2 := by
  rcases Nat.mod_two_eq_zero_or_one s.tick.toNat with h | h
  · rw [tickStep_of_even h, shiftTick_strobes, h, Nat.add_zero]
  · rw [tickStep_of_odd h, h]
    rfl

theorem phase_eq {s : State} {p : Fin 64} (h : s.tick.toNat % 128 = 2 * p.val) : phase s = p := by
  apply Fin.ext
  rw [phase_val]
  omega

/-- The swap test at the shift tick of phase p. -/
theorem swapNow_iff_of_phase {s : State} {p : Fin 64} (h : s.tick.toNat % 128 = 2 * p.val) :
    swapNow s = true ↔ p = 0 ∧ s.pending = true ∧
      (s.tick.toNat + 2 ^ 32 - s.target.toNat) % 2 ^ 32 < s.cfg.lagWindow := by
  rw [swapNow_iff, ← phase_val, phase_eq h, Fin.ext_iff]
  rfl

/-- `TICK` counts modulo 2^32. -/
theorem tick_add_one (s : State) : s.tick + 1#32 = BitVec.ofNat 32 (s.tick.toNat + 1) := by
  rw [BitVec.ofNat_add, BitVec.ofNat_toNat, BitVec.setWidth_eq]

/-- A tick that changes `ACTIVE` begins a cycle, with a swap due, and uses it up. -/
theorem tickStep_changes_active {s : State} (h : (tickStep s).active ≠ s.active) :
    s.tick.toNat % 128 = 0 ∧ s.pending = true ∧
      (s.tick.toNat + 2 ^ 32 - s.target.toNat) % 2 ^ 32 < s.cfg.lagWindow ∧
      (tickStep s).pending = false ∧ (tickStep s).swapped = true := by
  have hbegin : s.tick.toNat % 128 = 0 := by
    by_contra hinside
    exact h (tickStep_active_of_inside hinside)
  rcases tickStep_swap s with ⟨-, hswap, -, hclear, hset⟩ | ⟨-, hkeep, -⟩
  · obtain ⟨-, hpending, hlag⟩ := (swapNow_iff s).1 hswap
    exact ⟨hbegin, hpending, hlag, hclear, hset⟩
  · exact absurd hkeep h

/-! ARM_SWAP -/

theorem exec_armSwap_pending {s : State} (hp : s.pending = true) :
    exec .armSwap s = .next (raiseFault .armWhilePending 0x10000000#32 s) := by
  rw [exec, execArmSwap, if_pos hp]
  rfl

/-- `arm g` with no tick between its accesses. -/
theorem runAll_pseudoArm (g : Word) {s : State} (hp : s.pending = false) :
    runAll (pseudoArm g) s = .next { s with data := g, target := g, pending := true } := by
  have hdata : exec (wr .data g) s = .next { s with data := g } := exec_wr .data g s
  have harm : exec (wrCommand .armSwap) { s with data := g } =
      .next { s with data := g, target := g, pending := true } :=
    (exec_wrCommand rfl _).trans (exec_armSwap_idle hp)
  simp only [pseudoArm, runAll, hdata, harm]

/-- A target n < 2^32 ticks ahead of T lies at that distance from it, around the wrap too. -/
theorem ahead_of_tick (t : Word) {n : Nat} (hn : n < 2 ^ 32) :
    ((t + BitVec.ofNat 32 n).toNat + 2 ^ 32 - t.toNat) % 2 ^ 32 = n := by
  have ht := t.isLt
  rw [BitVec.toNat_add, BitVec.toNat_ofNat]
  omega

end Sys2Proof.Machine
end

section
/-! SUPPORT. When a pending swap is performed, over ticks with no host access between them
(spec/42_swap_arbiter.md R183, R184): the lag in the ticks to come, and the tick that swaps first. -/

namespace Sys2Proof.Machine

/-- A swap waits until the first tick that begins a cycle inside the lag window, which performs it. -/
theorem ticks_swap_first {s : State} {k : Nat} (hp : s.pending = true)
    (hwait : ∀ i < k, (s.tick.toNat + i) % 128 = 0 →
      s.cfg.lagWindow ≤ ((s.tick.toNat + i) + 2 ^ 32 - s.target.toNat) % 2 ^ 32)
    (hbegin : (s.tick.toNat + k) % 128 = 0)
    (hlag : ((s.tick.toNat + k) + 2 ^ 32 - s.target.toNat) % 2 ^ 32 < s.cfg.lagWindow) :
    (∀ j, j ≤ k → (ticks j s).pending = true ∧ (ticks j s).active = s.active) ∧
      (ticks (k + 1) s).active = !s.active ∧ (ticks (k + 1) s).pending = false ∧
      (ticks (k + 1) s).swapped = true := by
  have hpend : ∀ j, j ≤ k → (ticks j s).pending = true ∧ (ticks j s).active = s.active :=
    fun j hj => ticks_wait s j hp fun i hi => hwait i (Nat.lt_of_lt_of_le hi hj)
  obtain ⟨hpk, hak⟩ := hpend k (Nat.le_refl k)
  exact ⟨hpend, ticks_swap s k hpk hak hbegin hlag⟩

/-- The lag, i ticks on, of a target that is delta ticks ahead and not reached yet. -/
theorem lag_before_target {s : State} {delta i : Nat}
    (hdelta : delta = (s.target.toNat + 2 ^ 32 - s.tick.toNat) % 2 ^ 32) (hi : i < delta) :
    ((s.tick.toNat + i) + 2 ^ 32 - s.target.toNat) % 2 ^ 32 = 2 ^ 32 - delta + i := by
  have hT := s.tick.isLt
  have hG := s.target.isLt
  omega

/-- The lag i ticks after the target. -/
theorem lag_after_target {s : State} {delta i : Nat}
    (hdelta : delta = (s.target.toNat + 2 ^ 32 - s.tick.toNat) % 2 ^ 32) (hi : i < 2 ^ 32) :
    ((s.tick.toNat + (delta + i)) + 2 ^ 32 - s.target.toNat) % 2 ^ 32 = i := by
  have hT := s.tick.isLt
  have hG := s.target.isLt
  omega

/-- The lag of a target that is late already grows by 1 a tick until the counter has come round. -/
theorem lag_of_late {s : State} {late i : Nat}
    (hlate : late = (s.tick.toNat + 2 ^ 32 - s.target.toNat) % 2 ^ 32) (hi : late + i < 2 ^ 32) :
    ((s.tick.toNat + i) + 2 ^ 32 - s.target.toNat) % 2 ^ 32 = late + i := by
  have hT := s.tick.isLt
  have hG := s.target.isLt
  omega

/-- The first multiple of 128 at or after n. -/
theorem exists_next_cycle (n : Nat) :
    ∃ w < 128, (n + w) % 128 = 0 ∧ ∀ i < w, (n + i) % 128 ≠ 0 :=
  ⟨(128 - n % 128) % 128, by omega, by omega, by omega⟩

end Sys2Proof.Machine
end

section
/-! The statements of spec/42_swap_arbiter.md. -/

namespace Sys2Proof.Machine

/-- Settles O41: a latch tick, a shift tick with the swap, and one without. -/
theorem tickShiftsOrLatches : Obligations.TickShiftsOrLatches := by
  refine ⟨fun s hodd => ?_, fun s p hp => ?_⟩
  · rw [← tick_add_one, tickStep_of_odd hodd]
    rfl
  · rw [← swapNow_iff_of_phase hp, ← tick_add_one, tickStep_of_even (by omega)]
    obtain rfl := phase_eq hp
    refine ⟨fun hswap => ?_, fun hno => ?_⟩
    · rw [shiftTick_of_swap hswap]
    · rw [shiftTick_of_no_swap (Bool.eq_false_of_not_eq_true hno)]

/-- Settles O42: the host's operations leave `ACTIVE` alone, and a tick changes it by the swap. -/
theorem onlyADueSwapChangesActive : Obligations.OnlyADueSwapChangesActive := by
  intro s t hno h hactive
  obtain ⟨q, k, ⟨htick, rfl⟩ | ⟨d, v, -, heff⟩ | ⟨hon, -⟩⟩ := step_cases h
  · exact ⟨htick, tickStep_changes_active hactive⟩
  · rcases heff.swapPart_cases with hsame | ⟨-, rfl⟩ | rfl
    · exact absurd (congrArg SwapPart.active hsame) hactive
    · exact absurd rfl hactive
    · exact absurd rfl hactive
  · exact absurd hon hno

/-- Settles O44: before the target the lag is beyond the window, and the next cycle begins inside it, which
is at least 128 ticks wide. -/
theorem swapAtFirstBoundaryAfterTarget : Obligations.SwapAtFirstBoundaryAfterTarget := by
  intro s delta hcfg hp hdelta hfar
  obtain ⟨-, -, hwindow, hmax⟩ := hcfg
  obtain ⟨w, hw, hbegin, hfirst⟩ := exists_next_cycle (s.tick.toNat + delta)
  rw [Nat.add_assoc] at hbegin
  refine ⟨delta + w, by omega, by omega, hbegin, ticks_swap_first hp (fun i hi hcycle => ?_) hbegin ?_⟩
  · have hbefore : i < delta := by
      by_contra hafter
      exact hfirst (i - delta) (by omega) (by rwa [Nat.add_assoc, Nat.add_sub_cancel' (by omega)])
    rw [lag_before_target hdelta hbefore]
    omega
  · rw [lag_after_target hdelta (by omega)]
    omega

/-- Settles O45: no cycle begins in the k ticks before the boundary, and from there on the lag only grows
until the counter has come round. -/
theorem overdueSwapNowOrAfterTheWrap : Obligations.OverdueSwapNowOrAfterTheWrap := by
  intro s late k hcfg hp hlate _ hk hbegin
  obtain ⟨-, -, -, hmax⟩ := hcfg
  have hfirst : ∀ i, (s.tick.toNat + i) % 128 = 0 → k ≤ i := by omega
  refine ⟨fun hin => ?_, fun hout n hn => ?_⟩
  · obtain ⟨hwait, hactive, hpending, -⟩ := ticks_swap_first hp
      (fun i hi hcycle => absurd (hfirst i hcycle) (Nat.not_le.2 hi)) hbegin
      (by rwa [lag_of_late hlate (by omega)])
    exact ⟨hwait, hactive, hpending⟩
  · obtain ⟨hpending, hactive⟩ := ticks_wait s n hp fun i hi hcycle => by
      have hki := hfirst i hcycle
      rw [lag_of_late hlate (by omega)]
      omega
    exact ⟨hpending, hactive, by rw [ticks_eq]⟩

/-- Settles O46: tick 2p + 1 of the cycle latches frame p, and the even tick after it leaves the outputs. -/
theorem cycleShowsOneBankInOrder : Obligations.CycleShowsOneBankInOrder := by
  intro s p hs
  have hlatch := ticks_latch_in_cycle hs p
  have heven : (ticks (2 * p.val + 2) s).tick.toNat % 2 = 0 := by
    rw [ticks_tick]
    omega
  refine ⟨hlatch, ?_⟩
  rw [ticks_succ, tickStep_latch_of_even heven, hlatch]

/-- Settles O58: the distance bound keeps the delay below 2^32. -/
theorem armInHitsItsTarget : Obligations.ArmInHitsItsTarget := by
  intro s tickHz d hp hcfg hbound
  obtain ⟨-, -, hwindow, -⟩ := hcfg
  exact ⟨_, runAll_pseudoArm _ hp, rfl, rfl, rfl, ahead_of_tick s.tick (by omega)⟩

/-- Settles O6: the order of the events is that of `nextEvent`. -/
theorem stepTakesTick : Obligations.StepTakesTick :=
  ⟨fun _ => step_of_tick, fun _ _ _ => nextEvent_listed, fun _ => nextEvent_round, nextEvent_eq,
    tickStep_strobes⟩

/-- Settles O40: ARM_SWAP with nothing pending, and with a swap armed already. -/
theorem armSwapSetsTarget : Obligations.ArmSwapSetsTarget :=
  ⟨fun _ => exec_armSwap_idle, fun s hp =>
    ⟨_, exec_armSwap_pending hp, raiseFault_recorded .armWhilePending _ s⟩⟩

end Sys2Proof.Machine
end

section
/-! SUPPORT. A step whose event is an access (spec/43_bus_and_nop.md R201), the descriptor of a write of `CMD`
(spec/30_encoding.md R102, R104), and the words that have NOP's opcode and are not NOP (spec/43_bus_and_nop.md
R200). -/

namespace Sys2Proof.Machine

/-- A step whose next event is an access is the instruction its descriptor encodes. -/
theorem step_of_access {s : State} {d : Descriptor} {v : Word}
    (h : (nextEvent s).1 = .access d v) : step s = exec (decodeBus d v) (nextEvent s).2 := by
  unfold step
  generalize nextEvent s = p at h ⊢
  obtain ⟨e, s'⟩ := p
  obtain rfl : e = .access d v := h
  rfl

/-- 0x600C is the descriptor of the 4-byte WRITE at the offset of `CMD`. -/
theorem decodeBus_writeCmd (v : Word) : decodeBus 0x600C#15 v = .write .four 0x00C v :=
  decodeBus_encodeBus true .four (by decide : 0x00C < windowBytes) v

theorem step_of_command {s : State} {v : Word} {i : Instr}
    (h : (nextEvent s).1 = .access 0x600C#15 v) (hi : decodeCommand v = some i) :
    step s = exec i (nextEvent s).2 := by
  rw [step_of_access h, decodeBus_writeCmd, exec_writeCmd_of_some hi]

/-- With the opcode 0 the bits that a word other than 0 has are below bit 24. -/
theorem low_bits_ne_zero_of_opcode_zero {w : Word} (hw : w ≠ 0#32)
    (hop : w.extractLsb' 24 8 = 0#8) : w.extractLsb' 0 24 ≠ 0#24 := by
  intro hlow
  have hsmall : w.toNat < 2 ^ 24 := (high_bits_zero w 24 (by decide)).1 hop
  have hmod : w.toNat % 2 ^ 24 = 0 := by simpa using congrArg BitVec.toNat hlow
  rw [Nat.mod_eq_of_lt hsmall] at hmod
  exact hw (BitVec.eq_of_toNat_eq hmod)

theorem decodeCommand_eq_none_of_opcode_zero {w : Word} (hw : w ≠ 0#32)
    (hop : w.extractLsb' 24 8 = 0#8) : decodeCommand w = none :=
  decodeCommand_illegal
    (.inr (.inr ⟨by rw [hop]; decide, low_bits_ne_zero_of_opcode_zero hw hop⟩))

end Sys2Proof.Machine
end

section
/-! The statements of spec/43_bus_and_nop.md. -/

namespace Sys2Proof.Machine

/-- Settles O5: for any next event that is an access, and then for a listed one, which is the next. -/
theorem stepRunsDecodedAccess : Obligations.StepRunsDecodedAccess := by
  refine ⟨fun _ _ _ => step_of_access, fun _ _ _ => step_of_command, fun s d v rest h => ?_,
    fun s v i rest h hi => ?_⟩
  · have hnext := nextEvent_listed h
    rw [step_of_access (congrArg Prod.fst hnext), hnext]
  · have hnext := nextEvent_listed h
    rw [step_of_command (congrArg Prod.fst hnext) hi, hnext]

/-- Settles O15: the READ is `rd` of the register, written out. -/
theorem readReturnsRegister : Obligations.ReadReturnsRegister :=
  fun s r => ⟨exec_rd r s, exec_rd r s⟩

/-- Settles O29: the word 0 decodes to NOP, and no other word of its opcode decodes at all. -/
theorem nopChangesNothing : Obligations.NopChangesNothing :=
  fun s => ⟨rfl, exec_writeCmd_of_some (i := .nop) rfl s, fun _ hw hop =>
    exec_writeCmd_of_none (decodeCommand_eq_none_of_opcode_zero hw hop) s⟩

end Sys2Proof.Machine
end

section
/-! SUPPORT. What an instruction does to the fault record (spec/60_exceptions.md R222 to R226), said once: it
raises a fault, one of the causes R224 lists for it, or it leaves the record alone; and which of the two does
not depend on what is recorded already. -/

namespace Sys2Proof.Machine

/-! The record -/

/-- The fault record (spec/10_state.md R43). -/
structure FaultRecord where
  fault : Bool
  code : Byte
  info : Word

def State.faultRecord (s : State) : FaultRecord := ⟨s.fault, s.faultCode, s.faultInfo⟩

@[simp] theorem setBank_faultRecord (k : Bool) (b : Bank) (s : State) :
    (setBank k b s).faultRecord = s.faultRecord := by
  rw [setBank_eq]; rfl

@[simp] theorem acknowledge_faultRecord (v : Word) (s : State) :
    (acknowledge v s).faultRecord = s.faultRecord := by
  rw [acknowledge_eq]; rfl

@[simp] theorem beginPass_faultRecord (s : State) : (beginPass s).faultRecord = s.faultRecord := by
  rw [beginPass_eq]; rfl

@[simp] theorem continuePass_faultRecord (s : State) :
    (continuePass s).faultRecord = s.faultRecord := by
  rw [continuePass_eq]; rfl

@[simp] theorem tickStep_faultRecord (s : State) : (tickStep s).faultRecord = s.faultRecord := by
  rw [tickStep_eq]; rfl

/-! The two ways -/

/-- The causes an instruction can raise (spec/60_exceptions.md R224). -/
def CanRaise : Instr → FaultCode → Prop
  | .nop, _ => False
  | .render, c => c = .renderWhilePending
  | .renderList, c => c = .renderWhilePending
  | .armSwap, c => c = .armWhilePending
  | .schedInit, c => c = .schedProtocol
  | .schedStep, c => c = .schedProtocol
  | .schedRet _, c => c = .schedProtocol
  | .read _ _, c => c = .badAccess
  | .write size off _, c =>
    c = .badAccess ∨ c = .roWrite ∨ c = .valueRange ∨
      (size = .four ∧ off = 0x00C ∧
        (c = .illegalCmd ∨ c = .schedProtocol ∨ c = .renderWhilePending ∨ c = .armWhilePending))

/-- The state after i has faulted: the fault is recorded, and a READ returns 0 (spec/60_exceptions.md R226). -/
def faulted (i : Instr) (c : FaultCode) (w : Word) (s : State) : State :=
  match i with
  | .read _ _ => { raiseFault c w s with rdata := 0#32 }
  | _ => raiseFault c w s

/-- i faults with the cause c and the info w, whether a fault is recorded already or not. -/
def Raises (i : Instr) (c : FaultCode) (w : Word) (s : State) : Prop :=
  ∀ f, exec i { s with fault := f } = .next (faulted i c w { s with fault := f })

/-- i records nothing, whether a fault is recorded already or not. -/
def KeepsRecord (i : Instr) (s : State) : Prop :=
  ∀ f, ∃ t, exec i { s with fault := f } = .next t ∧
    t.faultRecord = { s with fault := f }.faultRecord

/-- i raises one of its causes, or records nothing. -/
def RaisesOrKeeps (i : Instr) (s : State) : Prop :=
  (∃ c w, CanRaise i c ∧ Raises i c w s) ∨ KeepsRecord i s

theorem command_raisesOrKeeps {i : Instr} (hc : i.isCommand = true) (s : State) :
    RaisesOrKeeps i s := by
  cases i with
  | nop => exact .inr fun _ => ⟨_, rfl, rfl⟩
  | render =>
    cases hp : s.pending
    · exact .inr fun _ => ⟨_, exec_render_idle hp, setBank_faultRecord _ _ _⟩
    · exact .inl ⟨_, _, rfl, fun _ => exec_render_pending hp⟩
  | renderList =>
    cases hp : s.pending
    · exact .inr fun _ => ⟨_, exec_renderList_idle hp, setBank_faultRecord _ _ _⟩
    · exact .inl ⟨_, _, rfl, fun _ => exec_renderList_pending hp⟩
  | armSwap =>
    cases hp : s.pending
    · exact .inr fun _ => ⟨_, exec_armSwap_idle hp, rfl⟩
    · exact .inl ⟨_, _, rfl, fun _ => exec_armSwap_pending hp⟩
  | schedInit =>
    cases hb : s.busy
    · exact .inr fun _ => ⟨_, exec_schedInit_idle hb, rfl⟩
    · exact .inl ⟨_, _, rfl, fun _ => exec_schedInit_busy hb⟩
  | schedStep =>
    by_cases h : s.sinit = false ∨ s.busy = true
    · exact .inl ⟨_, _, rfl, fun _ => exec_schedStep_refused h⟩
    · obtain ⟨hi, hb⟩ : s.sinit = true ∧ s.busy = false := by simpa using h
      exact .inr fun _ => ⟨_, exec_schedStep_idle hi hb, beginPass_faultRecord _⟩
  | schedRet f =>
    cases hb : s.busy
    · exact .inl ⟨_, _, rfl, fun _ => exec_schedRet_idle f hb⟩
    · exact .inr fun _ => ⟨_, exec_schedRet_busy f hb, continuePass_faultRecord _⟩
  | read | write => cases hc

/-- Through the write of `CMD` every cause can come. -/
theorem canRaise_writeCmd (w : Word) (c : FaultCode) : CanRaise (.write .four 0x00C w) c := by
  cases c <;> simp [CanRaise]

theorem faulted_command {i : Instr} (hc : i.isCommand = true) :
    faulted i = raiseFault := by
  cases i with
  | read | write => cases hc
  | nop | render | renderList | armSwap | schedInit | schedStep | schedRet => rfl

/-- A write of `CMD` does what its command does, or records `ILLEGAL_CMD`. -/
theorem writeCmd_raisesOrKeeps (w : Word) (s : State) :
    RaisesOrKeeps (.write .four 0x00C w) s := by
  cases hw : decodeCommand w with
  | none =>
    refine .inl ⟨.illegalCmd, w, canRaise_writeCmd w _, fun f => ?_⟩
    rw [exec_writeCmd, execCommandWord, hw]
    rfl
  | some i =>
    have hc := decodeCommand_isCommand hw
    rcases command_raisesOrKeeps hc s with ⟨c, info, -, hraise⟩ | hkeep
    · refine .inl ⟨c, info, canRaise_writeCmd w c, fun f => ?_⟩
      rw [exec_writeCmd_of_some hw, hraise f, faulted_command hc]
      rfl
    · refine .inr fun f => ?_
      rw [exec_writeCmd_of_some hw]
      exact hkeep f

/-- A write whose value is checked raises `VALUE_RANGE`, or else only has to keep the record. -/
theorem checked_raisesOrKeeps {r : Reg} {v : Word} {bad : Prop} [Decidable bad]
    {written : State → State}
    (h : ∀ s, writeReg v r s = if bad then refuseWrite .valueRange r s else .next (written s))
    (hkeep : ∀ s, (written s).faultRecord = s.faultRecord) (s : State) :
    RaisesOrKeeps (wr r v) s := by
  by_cases hbad : bad
  · exact .inl ⟨.valueRange, _, .inr (.inr (.inl rfl)),
      fun _ => (exec_wr r v _).trans ((h _).trans (if_pos hbad))⟩
  · exact .inr fun _ => ⟨_, (exec_wr r v _).trans ((h _).trans (if_neg hbad)), hkeep _⟩

theorem wr_raisesOrKeeps (r : Reg) (v : Word) (s : State) : RaisesOrKeeps (wr r v) s := by
  by_cases hro : readOnly r = true
  · exact .inl ⟨.roWrite, _, .inr (.inl rfl),
      fun _ => (exec_wr r v _).trans (writeReg_readOnly hro v _)⟩
  cases r with
  | ctrl => exact checked_raisesOrKeeps (writeReg_ctrl v) (fun _ => rfl) s
  | subsetHi => exact checked_raisesOrKeeps (writeReg_subsetHi v) (fun _ => rfl) s
  | br i => exact checked_raisesOrKeeps (writeReg_br v i) (fun _ => rfl) s
  | cmd => exact writeCmd_raisesOrKeeps v s
  | status => exact .inr fun _ => ⟨_, exec_wr .status v _, acknowledge_faultRecord v _⟩
  | data => exact .inr fun _ => ⟨_, exec_wr .data v _, rfl⟩
  | subsetLo => exact .inr fun _ => ⟨_, exec_wr .subsetLo v _, rfl⟩
  | id | result | call | tick | target | faultCode | faultInfo | latchLo | latchHi | threadRem
  | threadFn | lut | bank => exact absurd rfl hro

/-- Every instruction, in every state: a fault with one of its causes, or no change of the record. -/
theorem raisesOrKeeps (i : Instr) (s : State) : RaisesOrKeeps i s := by
  cases i with
  | read z off =>
    cases h : admitted z off with
    | none => exact .inl ⟨_, _, rfl, fun _ => exec_read_refused h _⟩
    | some r =>
      obtain ⟨rfl, rfl⟩ := admitted_eq_some h
      exact .inr fun _ => ⟨_, exec_rd r _, rfl⟩
  | write z off v =>
    cases h : admitted z off with
    | none => exact .inl ⟨_, _, .inl rfl, fun _ => exec_write_refused h v _⟩
    | some r =>
      obtain ⟨rfl, rfl⟩ := admitted_eq_some h
      exact wr_raisesOrKeeps r v s
  | nop | render | renderList | armSwap | schedInit | schedStep | schedRet =>
    exact command_raisesOrKeeps rfl s

/-! The two ways in a given state -/

theorem Raises.exec_eq {i : Instr} {c : FaultCode} {w : Word} {s : State} (h : Raises i c w s) :
    exec i s = .next (faulted i c w s) := h s.fault

theorem KeepsRecord.exec_next {i : Instr} {s : State} (h : KeepsRecord i s) :
    ∃ t, exec i s = .next t ∧ t.faultRecord = s.faultRecord := h s.fault

theorem faulted_eq (i : Instr) (c : FaultCode) (w : Word) (s : State) :
    faulted i c w s = { s with
      fault := true
      faultCode := if s.fault then s.faultCode else faultByte c
      faultInfo := if s.fault then s.faultInfo else w
      rdata := (faulted i c w s).rdata } := by
  cases i <;> simp only [faulted, raiseFault_eq]

theorem faulted_rdata_of_not_read {i : Instr} (hi : ∀ z off, i ≠ .read z off) (c : FaultCode)
    (w : Word) (s : State) : (faulted i c w s).rdata = s.rdata := by
  cases i with
  | read z off => exact absurd rfl (hi z off)
  | nop | render | renderList | armSwap | schedInit | schedStep | schedRet | write =>
    exact raiseFault_rdata c w s

/-- Every instruction has a next state, faulting or not. -/
theorem exec_total (i : Instr) (s : State) : ∃ t, exec i s = .next t := by
  rcases raisesOrKeeps i s with ⟨c, w, -, hraise⟩ | hkeep
  · exact ⟨_, hraise.exec_eq⟩
  · obtain ⟨t, ht, -⟩ := hkeep.exec_next
    exact ⟨t, ht⟩

/-- No instruction changes the record of a fault (spec/60_exceptions.md R222). -/
theorem exec_faultRecord_of_fault {i : Instr} {s t : State} (hf : s.fault = true)
    (h : exec i s = .next t) : t.faultRecord = s.faultRecord := by
  rcases raisesOrKeeps i s with ⟨c, w, -, hraise⟩ | hkeep
  · cases hraise.exec_eq.symm.trans h
    rw [faulted_eq, hf]
    simp [State.faultRecord, hf]
  · obtain ⟨t', ht', hrec⟩ := hkeep.exec_next
    cases ht'.symm.trans h
    exact hrec

/-- An instruction that faults has raised one of its causes. -/
theorem exists_raises {i : Instr} {s u : State} (h : exec i { s with fault := false } = .next u)
    (hu : u.fault = true) : ∃ c w, CanRaise i c ∧ Raises i c w s := by
  rcases raisesOrKeeps i s with hraise | hkeep
  · exact hraise
  · obtain ⟨u', hu', hrec⟩ := hkeep false
    cases hu'.symm.trans h
    exact absurd ((congrArg FaultRecord.fault hrec).symm.trans hu) nofun

/-- The first fault recorded is of one of the causes of the instruction that recorded it. -/
theorem exists_cause {i : Instr} {s t : State} (h : exec i s = .next t) (hs : s.fault = false)
    (ht : t.fault = true) : ∃ c, CanRaise i c ∧ t.faultCode = faultByte c := by
  have hself : { s with fault := false } = s := by rw [← hs]
  obtain ⟨c, w, hcan, hraise⟩ := exists_raises (s := s) (hself.symm ▸ h) ht
  cases hraise.exec_eq.symm.trans h
  refine ⟨c, hcan, ?_⟩
  rw [faulted_eq, hs]
  rfl

end Sys2Proof.Machine
end

section
/-! SUPPORT. Runs of steps: each event taken leaves the others in their order, so that a run comes to a tick
(spec/70_reset_and_hazards.md R280), and a fault stays recorded until power-on (spec/60_exceptions.md R227). -/

namespace Sys2Proof.Machine

theorem step_of_powerOn {s : State} (h : (nextEvent s).1 = .powerOn) :
    step s = .next (powerOn (nextEvent s).2) := by
  unfold step
  generalize nextEvent s = p at h ⊢
  obtain ⟨e, s'⟩ := p
  obtain rfl : e = .powerOn := h
  rfl

/-! A run comes to a tick -/

theorem HostEffect.inputs_eq {i : Instr} {s t : State} (h : HostEffect i s t) :
    t.inputs = s.inputs := by
  cases h with
  | fault c w => exact raiseFault_inputs c w s
  | readFault z o w => exact raiseFault_inputs .badAccess w s
  | read | unchanged | ctrl | ack | data | subset | br | arm | schedInit => rfl
  | render | renderList => exact setBank_inputs _ _ s
  | schedStep => rw [beginPass_eq]; rfl
  | schedRet => rw [continuePass_eq]; rfl

/-- Every step has a next state, and all it does to the listed events is to take the next one. -/
theorem step_total (s : State) :
    ∃ t, step s = .next t ∧ t.inputs = (nextEvent s).2.inputs := by
  cases h : (nextEvent s).1 with
  | tick => exact ⟨_, step_of_tick h, by rw [tickStep_eq]⟩
  | access d v =>
    obtain ⟨t, ht⟩ := exec_total (decodeBus d v) (nextEvent s).2
    exact ⟨t, (step_of_access h).trans ht, (exec_effect ht).inputs_eq⟩
  | powerOn => exact ⟨_, step_of_powerOn h, rfl⟩

/-- The run from s comes to a state whose next event is a tick. -/
def State.ReachesTick (s : State) : Prop :=
  ∃ n t, steps n s = some t ∧ (nextEvent t).1 = .tick

theorem reachesTick_of_tick {s : State} (h : (nextEvent s).1 = .tick) : s.ReachesTick :=
  ⟨0, s, rfl, h⟩

theorem steps_succ_of_step {s t : State} (h : step s = .next t) (n : Nat) :
    steps (n + 1) s = steps n t := by
  rw [steps, h]

theorem reachesTick_of_step {s t : State} (h : step s = .next t) (ht : t.ReachesTick) :
    s.ReachesTick := by
  obtain ⟨n, u, hrun, htick⟩ := ht
  exact ⟨n + 1, u, (steps_succ_of_step h n).trans hrun, htick⟩

/-- A run depends on its first state by the next event and what that leaves. -/
theorem reachesTick_congr {s s' : State} (h : nextEvent s = nextEvent s') (hs : s'.ReachesTick) :
    s.ReachesTick := by
  obtain ⟨n, u, hrun, htick⟩ := hs
  cases n with
  | zero =>
    cases hrun
    exact reachesTick_of_tick (h ▸ htick)
  | succ n =>
    have hstep : step s = step s' := by rw [step, step, h]
    exact ⟨n + 1, u, by rwa [steps, hstep], htick⟩

/-- The listed events are taken one by one, until what follows the first l of them. -/
theorem reachesTick_of_append {rest : List Event}
    (hrest : ∀ t : State, t.inputs = rest → t.ReachesTick) (l : List Event) {s : State}
    (hs : s.inputs = l ++ rest) : s.ReachesTick := by
  induction l generalizing s with
  | nil => exact hrest s hs
  | cons e l ih =>
    obtain ⟨t, hstep, hin⟩ := step_total s
    rw [nextEvent_listed hs] at hin
    exact reachesTick_of_step hstep (ih hin)

/-- With no event listed, the next round brings a tick as its last event. -/
theorem reachesTick_of_round {s : State} (h : s.inputs = []) : s.ReachesTick :=
  reachesTick_congr (nextEvent_round h) (reachesTick_of_append
    (fun _ ht => reachesTick_of_tick (congrArg Prod.fst (nextEvent_listed ht))) (hostRound s) rfl)

theorem reachesTick (s : State) : s.ReachesTick :=
  reachesTick_of_append (fun _ => reachesTick_of_round) s.inputs (List.append_nil _).symm

/-! A fault stays recorded -/

/-- A step that is not power-on leaves a recorded fault as it is. -/
theorem step_faultRecord_of_fault {s t : State} (hf : s.fault = true)
    (hno : (nextEvent s).1 ≠ .powerOn) (h : step s = .next t) : t.faultRecord = s.faultRecord := by
  have hnext : (nextEvent s).2.faultRecord = s.faultRecord := by rw [nextEvent_eq]; rfl
  have hfnext : (nextEvent s).2.fault = true := (congrArg FaultRecord.fault hnext).trans hf
  cases he : (nextEvent s).1 with
  | tick =>
    cases (step_of_tick he).symm.trans h
    rw [tickStep_faultRecord, hnext]
  | access d v =>
    rw [step_of_access he] at h
    rw [exec_faultRecord_of_fault hfnext h, hnext]
  | powerOn => exact absurd he hno

/-- No power-on is among the first n steps from s. -/
def State.NoPowerOn (s : State) (n : Nat) : Prop :=
  ∀ k < n, ∀ u, steps k s = some u → (nextEvent u).1 ≠ .powerOn

theorem noPowerOn_after {s u : State} {k n : Nat} (hu : steps k s = some u)
    (h : s.NoPowerOn (k + n)) : u.NoPowerOn n := by
  intro j hj v hv
  exact h (k + j) (Nat.add_lt_add_left hj k) v (by rw [steps_add, hu]; exact hv)

theorem steps_fault_of_fault {n : Nat} {s t : State} (hf : s.fault = true) (hno : s.NoPowerOn n)
    (h : steps n s = some t) : t.fault = true := by
  induction n generalizing s with
  | zero =>
    cases h
    exact hf
  | succ n ih =>
    obtain ⟨u, hstep, -⟩ := step_total s
    rw [steps_succ_of_step hstep] at h
    have hrec := step_faultRecord_of_fault hf (hno 0 n.succ_pos s rfl) hstep
    have hu : steps 1 s = some u := steps_succ_of_step hstep 0
    exact ih ((congrArg FaultRecord.fault hrec).trans hf)
      (noPowerOn_after hu (Nat.add_comm n 1 ▸ hno)) h

/-- A run without power-on that ends without a fault has had none. -/
theorem runSucceeds_of_end {n : Nat} {s t : State} (hno : s.NoPowerOn n) (h : steps n s = some t)
    (ht : t.fault = false) : RunSucceeds s n := by
  intro k hk
  obtain ⟨m, rfl⟩ := Nat.exists_eq_add_of_le hk
  rw [steps_add, Option.bind_eq_some_iff] at h
  obtain ⟨u, hu, hut⟩ := h
  refine ⟨u, hu, Bool.eq_false_of_not_eq_true fun hf => ?_⟩
  have htrue := steps_fault_of_fault hf (noPowerOn_after hu hno) hut
  exact absurd (ht.symm.trans htrue) nofun

theorem RunSucceeds.no_fault {s u : State} {k n : Nat} (h : RunSucceeds s n) (hk : k ≤ n)
    (hu : steps k s = some u) : u.fault = false := by
  obtain ⟨v, hv, hfault⟩ := h k hk
  cases hv.symm.trans hu
  exact hfault

end Sys2Proof.Machine
end

section
/-! The statements of spec/60_exceptions.md. -/

namespace Sys2Proof.Machine

/-- Settles O7: every instruction raises or keeps, and a run takes the listed events and then those of the next
round, whose last is a tick. -/
theorem blockNeverStops : Obligations.BlockNeverStops := by
  refine ⟨exec_total, fun s => ?_, reachesTick⟩
  obtain ⟨t, ht, -⟩ := step_total s
  exact ⟨t, ht⟩

/-- Settles O30: the fault is raised in both states alike, and what it leaves is `faulted`. -/
theorem faultHasNoOtherEffect : Obligations.FaultHasNoOtherEffect := by
  intro s t u i hu hfault ht
  obtain ⟨c, w, -, hraise⟩ := exists_raises hu hfault
  cases (hraise false).symm.trans hu
  cases hraise.exec_eq.symm.trans ht
  refine ⟨?_, ?_, fun hi => faulted_rdata_of_not_read hi c w s⟩
  · rw [faulted_eq i c w { s with fault := false }]
    exact faulted_eq i c w s
  · rintro z off rfl
    rfl

/-- Settles O31: by the record under one step, and from there along a run. -/
theorem faultRecordIsSticky : Obligations.FaultRecordIsSticky := by
  refine ⟨fun s t hf hno h => ?_, fun s u k n hk hu hf hrun => ?_, fun s t n hno h =>
    ⟨fun hrun => hrun.no_fault (Nat.le_refl n) h, runSucceeds_of_end hno h⟩⟩
  · have hrec := step_faultRecord_of_fault hf hno h
    simp only [State.faultRecord, FaultRecord.mk.injEq] at hrec
    obtain ⟨hfault, hcode, hinfo⟩ := hrec
    exact ⟨hfault.trans hf, hcode, hinfo⟩
  · exact absurd ((hrun.no_fault hk hu).symm.trans hf) nofun

/-- Settles O32: the cause raised is one of the instruction's, and a tick keeps the record. -/
theorem faultCausesByOperation : Obligations.FaultCausesByOperation := by
  refine ⟨fun s t i h hs ht => ?_, fun s => ?_⟩
  · obtain ⟨c, hcan, hcode⟩ := exists_cause h hs ht
    have code {x : FaultCode} (hx : c = x) : t.faultCode = faultByte x := hx ▸ hcode
    cases i with
    | nop => exact hcan
    | render | renderList | armSwap | schedInit | schedStep | schedRet | read => exact code hcan
    | write =>
      refine hcan.imp code (.imp code (.imp code fun ⟨hsize, hoff, hcmd⟩ => ⟨hsize, hoff, ?_⟩))
      exact hcmd.imp code (.imp code (.imp code code))
  · rw [tickStep_eq]
    exact ⟨rfl, rfl, rfl⟩

/-- Settles O33: the acknowledge clears `SWAPPED`, and a recorded fault stays. -/
theorem interruptLine : Obligations.InterruptLine := by
  refine ⟨fun s => by simp [irq], fun s => ⟨_, exec_wr .status 4#32 s, ?_⟩,
    fun s t hf _ hno h => ?_⟩
  · simp [irq, acknowledge]
  · have hrec := step_faultRecord_of_fault hf hno h
    have hfault : t.fault = true := (congrArg FaultRecord.fault hrec).trans hf
    cases hie : t.ieFault
    · exact .inr rfl
    · exact .inl (by simp [irq, hfault, hie])

end Sys2Proof.Machine
end

section
/-! SUPPORT. A block with nothing pending under ticks, and what keeps the LEDs dark
(spec/70_reset_and_hazards.md R262). -/

namespace Sys2Proof.Machine

/-- With nothing pending a tick swaps nothing. -/
theorem tickStep_idle {s : State} (hp : s.pending = false) :
    (tickStep s).pending = false ∧ (tickStep s).active = s.active := by
  rcases tickStep_swap s with ⟨-, hswap, -⟩ | ⟨-, hactive, hpending, -⟩
  · obtain ⟨-, hpending, -⟩ := (swapNow_iff s).1 hswap
    exact absurd (hp.symm.trans hpending) nofun
  · exact ⟨hpending.trans hp, hactive⟩

/-- A tick without a swap puts a frame of bank 0 into `SHIFT`, or `SHIFT` into `LATCH`: zeros. -/
theorem tickStep_dark {s : State} (hs : s.Dark) (ha : (tickStep s).active = s.active) :
    (tickStep s).Dark := by
  obtain ⟨hactive, hbank, hshift, hlatch⟩ := hs
  rcases Nat.mod_two_eq_zero_or_one s.tick.toNat with heven | hodd
  · cases hswap : swapNow s
    · rw [tickStep_of_even heven, shiftTick_of_no_swap hswap, hactive]
      exact ⟨rfl, hbank, hbank (phase s), hlatch⟩
    · rw [tickStep_of_even heven, shiftTick_of_swap hswap] at ha
      simp at ha
  · rw [tickStep_of_odd hodd]
    exact ⟨hactive, hbank, hshift, hshift⟩

/-- A host operation writes neither `SHIFT` nor `LATCH`, and of the banks only the inactive one. -/
theorem HostEffect.keeps_dark {i : Instr} {s t : State} (h : HostEffect i s t) (hs : s.Dark) :
    t.Dark := by
  obtain ⟨hactive, hbank, hshift, hlatch⟩ := hs
  have hbank' : t.bank0 = s.bank0 := by
    rcases h.bank_cases with hsame | ⟨-, b, rfl⟩
    · exact hsame false
    · rw [hactive]
      rfl
  rw [State.Dark, hbank']
  rcases h.swapPart_cases with hsame | ⟨-, rfl⟩ | rfl
  · simp only [State.swapPart, SwapPart.mk.injEq] at hsame
    obtain ⟨hactive', -, -, -, hshift', hlatch', -⟩ := hsame
    exact ⟨hactive'.trans hactive, hbank, hshift'.trans hshift, hlatch'.trans hlatch⟩
  · exact ⟨hactive, hbank, hshift, hlatch⟩
  · exact ⟨hactive, hbank, hshift, hlatch⟩

theorem powerOn_dark (s : State) : (powerOn s).Dark :=
  ⟨rfl, fun p => Vector.getElem_replicate p.isLt, rfl, rfl⟩

/-- With nothing pending, no number of ticks lights a LED. -/
theorem ticks_dark {s : State} (hs : s.Dark) (hp : s.pending = false) (n : Nat) :
    (ticks n s).Dark := by
  have hkeep := ticks_keep (P := fun t => t.Dark ∧ t.pending = false)
    (fun t ⟨hdark, hidle⟩ =>
      ⟨tickStep_dark hdark (tickStep_idle hidle).2, (tickStep_idle hidle).1⟩) n ⟨hs, hp⟩
  exact hkeep.1

end Sys2Proof.Machine
end

section
/-! SUPPORT. The main loop up to the completed step (spec/70_reset_and_hazards.md R264): with effects that only
write brightness no swap is armed and no fault recorded. -/

namespace Sys2Proof.Machine

/-- No swap is pending, and the active bank and the configuration are those of s₀. -/
def State.Unarmed (s₀ s : State) : Prop :=
  s.pending = false ∧ s.active = s₀.active ∧ s.cfg = s₀.cfg

theorem tickStep_unarmed {s₀ s : State} (hs : s₀.Unarmed s) : s₀.Unarmed (tickStep s) := by
  obtain ⟨hpending, hactive, hcfg⟩ := hs
  obtain ⟨hpending', hactive'⟩ := tickStep_idle hpending
  exact ⟨hpending', hactive'.trans hactive, by rw [tickStep_eq]; exact hcfg⟩

theorem ticks_unarmed {s₀ s : State} (n : Nat) (hs : s₀.Unarmed s) : s₀.Unarmed (ticks n s) :=
  ticks_keep (P := s₀.Unarmed) (fun _ => tickStep_unarmed) n hs

theorem exec_schedRet_unarmed {s₀ s : State} (f : Byte) (hs : s₀.Unarmed s) :
    ∃ t, exec (.schedRet f) s = .next t ∧ s₀.Unarmed t := by
  cases hb : s.busy
  · refine ⟨_, exec_schedRet_idle f hb, ?_⟩
    rw [raiseFault_eq]
    exact hs
  · refine ⟨_, exec_schedRet_busy f hb, ?_⟩
    rw [continuePass_eq]
    exact hs

theorem exec_effectAccess_unarmed {σ : Type} {r : EffectReturn σ} {i : Instr} {s₀ s : State}
    (hset : ∀ a ∈ r.actions, a.isSetbr = true) (hi : i ∈ effectAccesses r) (hs : s₀.Unarmed s) :
    ∃ t, exec i s = .next t ∧ s₀.Unarmed t := by
  rcases List.mem_append.1 hi with hact | hret
  · obtain ⟨a, ha, hia⟩ := List.mem_flatMap.1 hact
    cases a with
    | setbr j v =>
      rw [List.mem_singleton.1 hia]
      exact ⟨_, exec_setbr j v s, hs⟩
    | render | renderList | arm => exact absurd (hset _ ha) nofun
  · obtain rfl | rfl : i = wr .data r.delay ∨ i = wrCommand (.schedRet r.fn) := by
      simpa [pseudoRet] using hret
    · exact ⟨_, exec_wr .data r.delay s, hs⟩
    · rw [exec_wrCommand rfl]
      exact exec_schedRet_unarmed r.fn hs

theorem effect_unarmed {σ : Type} {gap : Nat → Nat} {r : EffectReturn σ} {s₀ : State}
    {h h' : HostRun} (hset : ∀ a ∈ r.actions, a.isSetbr = true) (hs : s₀.Unarmed h.state)
    (he : hostAccesses gap (effectAccesses r) h = some h') : s₀.Unarmed h'.state := by
  obtain ⟨h'', he', hs'⟩ := hostAccesses_keep (P := s₀.Unarmed)
    (fun _ => tickStep_unarmed) (fun _ hi _ => exec_effectAccess_unarmed hset hi) gap hs
  cases he'.symm.trans he
  exact hs'

section
variable {σ : Type} {eff : Effects σ} {gap : Nat → Nat} {s₀ : State}

theorem rd_unarmed {r : Reg} {h h₁ : HostRun} (hs : s₀.Unarmed h.state)
    (hr : hostAccess gap (rd r) h = some h₁) :
    s₀.Unarmed h₁.state ∧ h₁.state.fault = h.state.fault ∧ h₁.state.busy = h.state.busy := by
  cases (hostAccess_rd gap r h).symm.trans hr
  exact ⟨ticks_unarmed (gap h.made) hs, ticks_fault _ _, ticks_busy _ _⟩

theorem poll_shows_busy {h h₁ : HostRun} (hr : hostAccess gap (rd .status) h = some h₁) :
    h₁.state.rdata.getLsbD 4 = h₁.state.busy := by
  cases (hostAccess_rd gap .status h).symm.trans hr
  exact statusWord_busy _

/-- The calls of a step arm no swap and record no fault, by induction on the calls that are left. -/
theorem serveCalls_unarmed (hset : ∀ c y, ∀ a ∈ (eff c y).actions, a.isSetbr = true) {n : Nat}
    {h h' : HostRun} {x y : σ} {calls calls' : List EffectCall} (hs : s₀.Unarmed h.state)
    (hserve : serveCalls eff gap n h x calls = some (h', y, calls')) :
    s₀.Unarmed h'.state ∧ h'.state.fault = h.state.fault := by
  induction n generalizing h x calls with
  | zero =>
    obtain ⟨h₁, hpoll, hserve⟩ := Option.bind_eq_some_iff.1 hserve
    obtain ⟨hs₁, hfault₁, -⟩ := rd_unarmed hs hpoll
    split at hserve
    · cases hserve
    · cases hserve
      exact ⟨hs₁, hfault₁⟩
  | succ n ih =>
    obtain ⟨h₁, hpoll, hserve⟩ := Option.bind_eq_some_iff.1 hserve
    obtain ⟨hs₁, hfault₁, -⟩ := rd_unarmed hs hpoll
    split at hserve
    · rename_i hbit
      obtain ⟨h₂, hcall, hserve⟩ := Option.bind_eq_some_iff.1 hserve
      obtain ⟨h₃, heffect, hserve⟩ := Option.bind_eq_some_iff.1 hserve
      obtain ⟨hs₂, hfault₂, hbusy₂⟩ := rd_unarmed hs₁ hcall
      have hbusy : h₂.state.busy = true := hbusy₂.trans ((poll_shows_busy hpoll).symm.trans hbit)
      obtain ⟨hs', hfault'⟩ := ih (effect_unarmed (hset _ _) hs₂ heffect) hserve
      have hfault₃ := effect_keeps_fault gap (hset _ _) hbusy heffect
      exact ⟨hs', hfault'.trans (hfault₃.trans (hfault₂.trans hfault₁))⟩
    · cases hserve
      exact ⟨hs₁, hfault₁⟩

theorem schedStep_unarmed {h h₁ : HostRun} (hi : h.state.sinit = true) (hb : h.state.busy = false)
    (hs : s₀.Unarmed h.state) (hstep : hostAccess gap (wrCommand .schedStep) h = some h₁) :
    s₀.Unarmed h₁.state ∧ h₁.state.fault = h.state.fault := by
  have hinit : (ticks (gap h.made) h.state).sinit = true := by
    rw [ticks_eq]
    exact hi
  have hexec := (exec_wrCommand rfl _).trans (exec_schedStep_idle hinit ((ticks_busy _ _).trans hb))
  rw [hostAccess_eq hexec, Option.some.injEq] at hstep
  subst hstep
  rw [beginPass_eq]
  exact ⟨ticks_unarmed (gap h.made) hs, ticks_fault _ _⟩

/-- The source's loop ends with no delay at 0 (spec/40_scheduler.md R127). -/
theorem leastRem_ne_zero_of_sourceLoop {n : Nat} {w w' : StepWork σ}
    (hs : sourceLoop eff n w = some w') : leastRem w'.threads ≠ 0#32 := by
  induction n generalizing w with
  | zero =>
    rw [sourceLoop] at hs
    split at hs
    · cases hs
      assumption
    · cases hs
  | succ n ih =>
    rw [sourceLoop] at hs
    split at hs
    · cases hs
      assumption
    · exact ih hs

/-- The step has completed with a non-zero result; beside it, no swap is pending and the fault flag, the
active bank and the configuration are those of s₀. -/
def State.Stepped (s₀ s : State) : Prop :=
  s.busy = false ∧ s.last ≠ 0#32 ∧ s.fault = s₀.fault ∧ s₀.Unarmed s

/-- What the first part of an iteration leaves: SCHED_STEP and the calls it needs. -/
theorem stepped_of_serveCalls (hset : ∀ c y, ∀ a ∈ (eff c y).actions, a.isSetbr = true) {n : Nat}
    {h h₁ h₂ : HostRun} {x y : σ} {calls : List EffectCall} (hi : h.state.sinit = true)
    (hb : h.state.busy = false) (hp : h.state.pending = false)
    (hstep : hostAccess gap (wrCommand .schedStep) h = some h₁)
    (hserve : serveCalls eff gap n h₁ x [] = some (h₂, y, calls)) :
    h.state.Stepped h₂.state := by
  obtain ⟨hs₁, hfault₁⟩ := schedStep_unarmed hi hb (s₀ := h.state) ⟨hp, rfl, rfl⟩ hstep
  obtain ⟨hs₂, hfault₂⟩ := serveCalls_unarmed hset hs₁ hserve
  obtain ⟨hshows, hafter⟩ := hostAccess_schedStep x hi hb hstep
  obtain ⟨m, w, hloop, -, -, hbusy, -, -, hlast⟩ :=
    sourceLoop_of_serveCalls eff gap hshows hafter hserve
  exact ⟨hbusy, hlast ▸ leastRem_ne_zero_of_sourceLoop hloop, hfault₂.trans hfault₁, hs₂⟩

end

end Sys2Proof.Machine
end

section
/-! SUPPORT. The main loop after the completed step (spec/70_reset_and_hazards.md R264): the result is read, the
frame rendered and its swap armed; then `waitswap`, which sees the swap, and the acknowledge. -/

namespace Sys2Proof.Machine

/-- What neither a tick nor the end of an iteration writes: the scheduler's part with the brightness, the
banks, the fault flag and the configuration. -/
structure WorkPart where
  sched : SchedPart
  bank0 : Bank
  bank1 : Bank
  fault : Bool
  cfg : Config

def State.work (s : State) : WorkPart := ⟨s.sched, s.bank0, s.bank1, s.fault, s.cfg⟩

@[simp] theorem ticks_work (n : Nat) (s : State) : (ticks n s).work = s.work := by
  rw [ticks_eq]; rfl

/-- The frame is drawn: bank k holds the rendering of the present brightness, the step has completed with a
non-zero result, and the fault flag and the configuration are those of s₀. -/
def State.Drawn (s₀ : State) (k : Bool) (s : State) : Prop :=
  s.fault = s₀.fault ∧ s.cfg = s₀.cfg ∧ s.busy = false ∧ s.last ≠ 0#32 ∧
  ∀ (p : Fin 64) (i : Fin 40), s.ledBit k p i.val =
    decide (p.val < (pulseLength s₀.cfg s.br[i]).toNat)

theorem drawn_congr {s₀ s t : State} {k : Bool} (h : t.work = s.work) (hs : s₀.Drawn k s) :
    s₀.Drawn k t := by
  cases s; cases t
  simp only [State.work, State.sched, WorkPart.mk.injEq, SchedPart.mk.injEq] at h
  obtain ⟨⟨rfl, rfl, rfl, rfl, rfl, rfl, rfl⟩, rfl, rfl, rfl, rfl⟩ := h
  exact hs

/-- RENDER after the completed step draws the frame. -/
theorem rasterizeAll_drawn {s₀ s : State} (hs : s₀.Stepped s) :
    s₀.Drawn (!s₀.active) (rasterizeAll s) := by
  obtain ⟨hbusy, hlast, hfault, -, hactive, hcfg⟩ := hs
  refine ⟨(setBank_fault _ _ s).trans hfault, (setBank_cfg _ _ s).trans hcfg,
    (setBank_busy _ _ s).trans hbusy, ?_, fun p i => ?_⟩
  · rw [rasterizeAll, setBank_last]
    exact hlast
  · rw [← hactive, rasterizeAll_ledBit_led, hcfg, rasterizeAll, setBank_br]

theorem ticks_stepped {s₀ s : State} (n : Nat) (hs : s₀.Stepped s) : s₀.Stepped (ticks n s) := by
  obtain ⟨hbusy, hlast, hfault, hunarmed⟩ := hs
  refine ⟨(ticks_busy n s).trans hbusy, ?_, (ticks_fault n s).trans hfault, ticks_unarmed n hunarmed⟩
  rw [ticks_eq]
  exact hlast

/-- A swap is armed n ticks after a value of `TICK` that `passed` ticks have left behind, and the active bank is
that of s₀. -/
def State.ArmedFrom (s₀ : State) (n passed : Nat) (s : State) : Prop :=
  s.pending = true ∧ s.active = s₀.active ∧
  ∃ T : Word, s.target = T + BitVec.ofNat 32 n ∧ s.tick = T + BitVec.ofNat 32 passed

theorem ticks_tick_add (n : Nat) (s : State) :
    (ticks n s).tick = s.tick + BitVec.ofNat 32 n := by rw [ticks_eq]

/-- `arm g` with nothing pending arms a swap at g, after the ticks of its two gaps. -/
theorem arm_idle (gap : Nat → Nat) (g : Word) {h : HostRun} (hp : h.state.pending = false) :
    ∃ h', hostAccesses gap (pseudoArm g) h = some h' ∧ h'.state.work = h.state.work ∧
      h'.state.pending = true ∧ h'.state.active = h.state.active ∧ h'.state.target = g ∧
      h'.state.tick = h.state.tick + BitVec.ofNat 32 (gap h.made + gap (h.made + 1)) := by
  let t : State := { ticks (gap h.made) h.state with data := g }
  let u := ticks (gap (h.made + 1)) t
  have hdata : hostAccess gap (wr .data g) h = some ⟨t, h.made + 1⟩ :=
    hostAccess_eq (exec_wr .data g _)
  obtain ⟨hidle, hactive, -⟩ : h.state.Unarmed u :=
    ticks_unarmed _ (ticks_unarmed (gap h.made) (s₀ := h.state) ⟨hp, rfl, rfl⟩)
  have harm : hostAccess gap (wrCommand .armSwap) ⟨t, h.made + 1⟩ =
      some ⟨{ u with target := u.data, pending := true }, h.made + 2⟩ :=
    hostAccess_eq ((exec_wrCommand rfl u).trans (exec_armSwap_idle hidle))
  refine ⟨⟨{ u with target := u.data, pending := true }, h.made + 2⟩, ?_, ?_, rfl, hactive, ?_, ?_⟩
  · simp only [pseudoArm, hostAccesses, hdata, harm, Option.bind_some]
  · exact (ticks_work _ t).trans (ticks_work (gap h.made) h.state)
  · exact congrArg State.data (ticks_eq _ t)
  · rw [BitVec.ofNat_add, ← BitVec.add_assoc, ← ticks_tick_add]
    exact ticks_tick_add _ t

/-- `arm_in d` with nothing pending arms a swap `ms_to_ticks(d)` ticks after the `TICK` it read, which the gaps
of `arm` leave behind. -/
theorem armIn_idle (gap : Nat → Nat) (tickHz : Nat) (d : Word) {h : HostRun}
    (hp : h.state.pending = false) :
    ∃ h', armIn gap tickHz d h = some h' ∧ h'.state.work = h.state.work ∧
      h.state.ArmedFrom (msToTicks tickHz d) (gap (h.made + 1) + gap (h.made + 2)) h'.state := by
  let u := ticks (gap h.made) h.state
  obtain ⟨hidle, hactive, -⟩ : h.state.Unarmed u := ticks_unarmed _ ⟨hp, rfl, rfl⟩
  obtain ⟨h', harm, hwork, hpending, hactive', htarget, htick⟩ := arm_idle gap
    (u.tick + BitVec.ofNat 32 (msToTicks tickHz d)) (h := ⟨{ u with rdata := u.tick }, h.made + 1⟩)
    hidle
  refine ⟨h', ?_, hwork.trans (ticks_work (gap h.made) h.state), hpending, hactive'.trans hactive,
    u.tick, htarget, htick⟩
  rw [armIn, hostAccess_rd]
  exact harm

/-- A swap that is no longer pending after some ticks was performed by one of them, and by one only. -/
theorem ticks_swapped {s : State} {n : Nat} (hp : s.pending = true)
    (hn : (ticks n s).pending = false) : (ticks n s).active = !s.active := by
  induction n generalizing s with
  | zero => exact absurd (hp.symm.trans hn) nofun
  | succ n ih =>
    rw [ticks] at hn ⊢
    rcases tickStep_swap s with ⟨-, -, hactive, hclear, -⟩ | ⟨-, hactive, hkeep, -⟩
    · obtain ⟨-, hsame, -⟩ := ticks_unarmed n (s₀ := tickStep s) ⟨hclear, rfl, rfl⟩
      exact hsame.trans hactive
    · rw [ih (hkeep.trans hp) hn, hactive]

theorem ack_done (gap : Nat → Nat) {s₀ : State} {h : HostRun} (hs : s₀.Unarmed h.state) :
    ∃ h', hostAccesses gap pseudoAck h = some h' ∧ h'.state.work = h.state.work ∧
      s₀.Unarmed h'.state ∧ h'.state.swapped = false := by
  have hack : hostAccess gap (wr .status 4#32) h =
      some ⟨{ ticks (gap h.made) h.state with swapped := false }, h.made + 1⟩ :=
    hostAccess_eq (exec_wr .status 4#32 _)
  exact ⟨_, by rw [pseudoAck, hostAccesses, hack]; rfl, ticks_work _ _,
    ticks_unarmed (gap h.made) hs, rfl⟩

/-- An armed swap that is seen performed and acknowledged has brought on the other bank. -/
theorem shown_of_waitSwap {gap : Nat → Nat} {s₀ : State} {polls n passed : Nat} {k : Bool}
    {h₅ h₆ h₇ : HostRun} (hdrawn : s₀.Drawn k h₅.state) (harmed : s₀.ArmedFrom n passed h₅.state)
    (hwait : waitSwap gap polls h₅ = some h₆) (hack : hostAccesses gap pseudoAck h₆ = some h₇) :
    s₀.Drawn k h₇.state ∧ h₇.state.pending = false ∧ h₇.state.swapped = false ∧
      h₇.state.active = !s₀.active := by
  obtain ⟨hpending, hactive, -⟩ := harmed
  obtain ⟨m, v, hstate, hdone⟩ := waitSwap_eq hwait
  have hwork : h₆.state.work = h₅.state.work := by
    rw [hstate]
    exact ticks_work m _
  have hactive₆ : h₆.state.active = !s₀.active := by
    rw [hstate] at hdone ⊢
    exact (ticks_swapped hpending hdone).trans (congrArg _ hactive)
  obtain ⟨h', hack', hwork', ⟨hpending', hactive', -⟩, hswapped⟩ :=
    ack_done gap (s₀ := h₆.state) ⟨hdone, rfl, rfl⟩
  cases hack'.symm.trans hack
  exact ⟨drawn_congr (hwork'.trans hwork) hdrawn, hpending', hswapped, hactive'.trans hactive₆⟩

/-- A swap that is armed in time, and within the distance bound, is performed less than one cycle after its
target (spec/42_swap_arbiter.md R183). -/
theorem ticks_pending_of_armed {s₀ s : State} {n passed k : Nat} (hcfg : s.cfg.wf)
    (harmed : s₀.ArmedFrom n passed s) (htime : passed ≤ n) (hbound : n ≤ 2 ^ 32 - s.cfg.lagWindow)
    (hk : n + 128 ≤ k) : (ticks k s).pending = false := by
  obtain ⟨hpending, -, T, htarget, htick⟩ := harmed
  have ⟨_, _, hwindow, _⟩ := hcfg
  have hahead : s.target = s.tick + BitVec.ofNat 32 (n - passed) := by
    rw [htarget, htick, BitVec.add_assoc, ← BitVec.ofNat_add, Nat.add_sub_cancel' htime]
  have hdelta : n - passed = (s.target.toNat + 2 ^ 32 - s.tick.toNat) % 2 ^ 32 := by
    rw [hahead, ahead_of_tick s.tick (by omega)]
  obtain ⟨m, -, hm, -, -, -, hswap, -⟩ :=
    swapAtFirstBoundaryAfterTarget s (n - passed) hcfg hpending hdelta (by omega)
  obtain ⟨j, rfl⟩ := Nat.exists_eq_add_of_le (show m + 1 ≤ k by omega)
  obtain ⟨hidle, -⟩ := ticks_unarmed j (s₀ := ticks (m + 1) s) ⟨hswap, rfl, rfl⟩
  rw [ticks_add]
  exact hidle

/-- An iteration whose step completes comes to its `waitswap` with the frame drawn in the inactive bank and the
swap to it armed. -/
theorem mainLoop_armed {σ : Type} {eff : Effects σ} {gap : Nat → Nat} {n : Nat} {h h₁ h₂ : HostRun}
    {x y : σ} {calls : List EffectCall} (tickHz polls : Nat)
    (hstep : hostAccess gap (wrCommand .schedStep) h = some h₁)
    (hserve : serveCalls eff gap n h₁ x [] = some (h₂, y, calls))
    (hdone : h.state.Stepped h₂.state) :
    ∃ h₅ j, mainLoop eff gap tickHz n polls h x =
        ((waitSwap gap polls h₅).bind fun h₆ =>
          (hostAccesses gap pseudoAck h₆).map fun h₇ => (h₇, y, calls)) ∧
      h.state.Drawn (!h.state.active) h₅.state ∧
      h.state.ArmedFrom (msToTicks tickHz h₂.state.last) (gap j + gap (j + 1)) h₅.state := by
  have hread : hostAccess gap (rd .result) h₂ =
      some ⟨{ ticks (gap h₂.made) h₂.state with rdata := (ticks (gap h₂.made) h₂.state).last },
        h₂.made + 1⟩ := hostAccess_rd gap .result h₂
  have hlast : (ticks (gap h₂.made) h₂.state).last = h₂.state.last := by rw [ticks_eq]
  rw [hlast] at hread
  let u := ticks (gap (h₂.made + 1)) { ticks (gap h₂.made) h₂.state with rdata := h₂.state.last }
  have hu : h.state.Stepped u := ticks_stepped _ (ticks_stepped (gap h₂.made) hdone)
  have ⟨_, _, _, hidle, hactive, _⟩ := hu
  have hrender : hostAccess gap (wrCommand .render)
      ⟨{ ticks (gap h₂.made) h₂.state with rdata := h₂.state.last }, h₂.made + 1⟩ =
      some ⟨rasterizeAll u, h₂.made + 2⟩ :=
    hostAccess_eq ((exec_wrCommand rfl _).trans (exec_render_idle hidle))
  obtain ⟨h₅, harm, hwork, hpending, hactive₅, htarget⟩ := armIn_idle gap tickHz h₂.state.last
    (h := ⟨rasterizeAll u, h₂.made + 2⟩) ((setBank_pending _ _ u).trans hidle)
  refine ⟨h₅, h₂.made + 3, ?_, drawn_congr hwork (rasterizeAll_drawn hu), hpending,
    hactive₅.trans ((rasterizeAll_active u).trans hactive), htarget⟩
  simp only [mainLoop, hstep, hserve, hread, hrender, harm, Option.bind_some]

end Sys2Proof.Machine
end

section
/-! The statements of spec/70_reset_and_hazards.md. -/

namespace Sys2Proof.Machine

/-- Settles O8: the step is `powerOn`, which takes over the configuration and the events still to come. -/
theorem powerOnResetsAll : Obligations.PowerOnResetsAll := by
  intro s h
  have hcfg : (nextEvent s).2.cfg = s.cfg := by rw [nextEvent_eq]
  have hbank (k : Bool) (p : Fin 64) : ((powerOn (nextEvent s).2).bank k)[p] = 0#64 := by
    cases k <;> exact Vector.getElem_replicate p.isLt
  exact ⟨_, step_of_powerOn h, fun i => Vector.getElem_replicate i.isLt, hbank, rfl, rfl, rfl, rfl,
    rfl, rfl, rfl, fun i => Vector.getElem_replicate i.isLt, rfl, rfl, rfl, rfl, rfl, rfl, rfl, rfl,
    rfl, rfl, rfl, rfl, hcfg⟩

/-- Settles O10: each of the four words is made of elements that are 0 at reset. -/
theorem registersAfterReset : Obligations.RegistersAfterReset := by
  refine ⟨fun r hr v => ⟨_, exec_rd r _, ?_⟩, rfl⟩
  rcases hr with rfl | rfl | rfl | rfl
  · exact (by decide : statusWord State.reset = 0#32)
  · exact (by decide : ctrlWord State.reset = 0#32)
  · exact (rfl : State.reset.last = 0#32)
  · exact (by decide : callWord State.reset = 0#32)

/-- Settles O11: reset is what power-on leaves, and then by the three kinds of step. -/
theorem ledsStayDarkAfterReset : Obligations.LedsStayDarkAfterReset := by
  have hreset : State.reset.Dark := powerOn_dark State.reset
  refine ⟨hreset, fun s t hs h ha => ?_, rfl, ?_, fun n => ⟨ticks_dark hreset rfl n, ?_⟩⟩
  · obtain ⟨q, k, ⟨-, rfl⟩ | ⟨d, v, -, heff⟩ | ⟨-, rfl⟩⟩ := step_cases h
    · exact tickStep_dark (s := { s with inputs := q, rounds := k }) hs ha
    · exact heff.keeps_dark hs
    · exact powerOn_dark _
  · obtain ⟨-, hactive⟩ := tickStep_idle (s := State.reset) rfl
    rw [tickStep_shift_of_even (p := 0) rfl, hactive]
    rfl
  · rw [ticks_eq]
    exact BitVec.zero_add _

/-- Settles O60: an iteration has a completed step behind it when it renders, and the swap it then arms is the
one that `waitswap` sees; armed in time, that swap comes within the polls. -/
theorem mainLoopShowsTheFrame : Obligations.MainLoopShowsTheFrame := by
  intro σ eff gap tickHz n polls h x hcfg hi hb hp hset
  refine ⟨fun h' y calls hloop => ?_, fun g h₁ h₂ y calls hstep hserve hgap htime hbound hpolls => ?_⟩
  · obtain ⟨h₁, hstep, hrest⟩ := Option.bind_eq_some_iff.1 hloop
    obtain ⟨⟨h₂, y₂, calls₂⟩, hserve, -⟩ := Option.bind_eq_some_iff.1 hrest
    obtain ⟨h₅, j, heq, hdrawn, harmed⟩ := mainLoop_armed tickHz polls hstep hserve
      (stepped_of_serveCalls hset hi hb hp hstep hserve)
    rw [heq] at hloop
    obtain ⟨h₆, hwait, hend⟩ := Option.bind_eq_some_iff.1 hloop
    obtain ⟨h₇, hack, hanswer⟩ := Option.map_eq_some_iff.1 hend
    cases hanswer
    obtain ⟨⟨hfault, -, hbusy, hlast, hframe⟩, hpending, hswapped, hactive⟩ :=
      shown_of_waitSwap hdrawn harmed hwait hack
    exact ⟨hfault, hbusy, hpending, hswapped, hactive, hlast, hactive ▸ hframe⟩
  · obtain ⟨h₅, j, heq, hdrawn, harmed⟩ := mainLoop_armed tickHz polls hstep hserve
      (stepped_of_serveCalls hset hi hb hp hstep hserve)
    have ⟨_, hcfg₅, _⟩ := hdrawn
    obtain ⟨-, hgap₁⟩ := hgap j
    obtain ⟨-, hgap₂⟩ := hgap (j + 1)
    obtain ⟨h₆, hwait⟩ := waitSwap_ends (gap := gap) (h := h₅) (n := polls)
      (fun i => (hgap i).1) (by omega) fun k hk =>
        ticks_pending_of_armed (hcfg₅ ▸ hcfg) harmed (by omega) (hcfg₅ ▸ hbound) (by omega)
    obtain ⟨m, v, -, hdone⟩ := waitSwap_eq hwait
    obtain ⟨h₇, hack, -⟩ := ack_done gap (s₀ := h₆.state) ⟨hdone, rfl, rfl⟩
    exact ⟨h₇, by rw [heq, hwait, Option.bind_some, hack, Option.map_some]⟩

end Sys2Proof.Machine
end
